-- ==== Sys2Proof/Word.lean ====
section
/-! DEFINITION. The word types of the HDTE: bytes, 32-bit register words and 64-bit operands (00_scope.md R6, R7, R8). -/

namespace Sys2Proof

/-- An 8-bit byte (R9). -/
abbrev Byte := BitVec 8

/-- A 32-bit host-visible register word (R6, "Register width"). -/
abbrev Word := BitVec 32

/-- A 64-bit operand: timestamp, start offset, step, counter (R6, "Operand width"). -/
abbrev DWord := BitVec 64

end Sys2Proof
end

