-- ==== Sys2Proof/Syntax.lean ====
section
/-! DEFINITION. The commands of the block, one constructor per row of spec/opcode_table.json (30_encoding.md R87). -/

namespace Sys2Proof

/-- A command (R81). `z` is the Z bit (R84), `d` the DigitCount operand DIG (R83), `kb` the key byte operand KB (R85).
`d` is a count and a natural number; `Instr.wf` bounds it by its 4-bit field. -/
inductive Instr where
  | nop    (z : Bool)
  | derive (z : Bool)
  | trunc  (z : Bool)
  | reduce (d : Nat) (z : Bool)
  | format (d : Nat) (z : Bool)
  | dtf    (d : Nat) (z : Bool)
  | hotp   (d : Nat) (z : Bool)
  | totp   (d : Nat) (z : Bool)
  | kopen  (z : Bool)
  | kpush  (kb : Byte) (z : Bool)
  | kclose (z : Bool)
  | zall   (z : Bool)
deriving DecidableEq, Repr

end Sys2Proof
end

