-- ==== Sys2Proof/WellFormed.lean ====
section
/-! DEFINITION. Which commands fit the command word: a DigitCount operand fits its 4-bit field (30_encoding.md R83, R93). -/

namespace Sys2Proof

/-- "an unsigned value 0 to 15" (R83): any DIG value the field holds, supported or not. -/
def digFits (d : Nat) : Bool := decide (d < 16)

/-- The command can be written as a command word. Z and KB fit their fields by their types. -/
def Instr.wf : Instr → Bool
  | .nop _ => true
  | .derive _ => true
  | .trunc _ => true
  | .reduce d _ => digFits d
  | .format d _ => digFits d
  | .dtf d _ => digFits d
  | .hotp d _ => digFits d
  | .totp d _ => digFits d
  | .kopen _ => true
  | .kpush _ _ => true
  | .kclose _ => true
  | .zall _ => true

end Sys2Proof
end

