-- ==== Sys2Proof/Decode.lean ====
section
/-! DEFINITION. The decoder of a command word (30_encoding.md R81 to R92), total on every word, and the encoder (R93). -/

namespace Sys2Proof

/-! ## Fields of the command word (R81) -/

/-- OP, bits [7:0] (R82). -/
def opField (w : Word) : BitVec 8 := w.extractLsb' 0 8

/-- DIG, bits [11:8] (R83). -/
def digField (w : Word) : BitVec 4 := w.extractLsb' 8 4

/-- Z, bit [12] (R84). -/
def zField (w : Word) : Bool := w.getLsbD 12

/-- RSV1, bits [15:13] (R86). -/
def rsv1Field (w : Word) : BitVec 3 := w.extractLsb' 13 3

/-- KB, bits [23:16] (R85). -/
def kbField (w : Word) : Byte := w.extractLsb' 16 8

/-- RSV2, bits [31:24] (R86). -/
def rsv2Field (w : Word) : BitVec 8 := w.extractLsb' 24 8

/-! ## Decoding -/

/-- Why a word is no command (R89). -/
inductive Illegal where
  /-- OP is not in the opcode map (R90). -/
  | reservedOpcode
  /-- A reserved field, or an operand field the opcode does not take, is not 0 (R86, R88, R91). -/
  | reservedField
deriving DecidableEq, Repr

/-- The opcodes that take a DigitCount (R88, "DigitCount" class). -/
def takesDig (op : BitVec 8) : Bool := [0x11#8, 0x12#8, 0x13#8, 0x20#8, 0x21#8].contains op

/-- The opcode that takes a key byte (R88, "key byte" class). -/
def takesKb (op : BitVec 8) : Bool := op == 0x31#8

/-- The opcode map (R87): the command an opcode names, with its operand fields; none where OP is reserved. -/
def commandOf (op : BitVec 8) (d : Nat) (z : Bool) (kb : Byte) : Option Instr :=
  if op = 0x00#8 then some (.nop z)
  else if op = 0x01#8 then some (.derive z)
  else if op = 0x10#8 then some (.trunc z)
  else if op = 0x11#8 then some (.reduce d z)
  else if op = 0x12#8 then some (.format d z)
  else if op = 0x13#8 then some (.dtf d z)
  else if op = 0x20#8 then some (.hotp d z)
  else if op = 0x21#8 then some (.totp d z)
  else if op = 0x30#8 then some (.kopen z)
  else if op = 0x31#8 then some (.kpush kb z)
  else if op = 0x32#8 then some (.kclose z)
  else if op = 0x3F#8 then some (.zall z)
  else none

/-- The decode procedure (R89): the reserved-opcode check, then the reserved fields, then the operand fields the
opcode does not take. -/
def decode (w : Word) : Except Illegal Instr :=
  match commandOf (opField w) (digField w).toNat (zField w) (kbField w) with
  | none => .error .reservedOpcode
  | some i =>
    if rsv1Field w ≠ 0 ∨ rsv2Field w ≠ 0 then .error .reservedField
    else if takesDig (opField w) = false ∧ digField w ≠ 0 then .error .reservedField
    else if takesKb (opField w) = false ∧ kbField w ≠ 0 then .error .reservedField
    else .ok i

/-! ## Encoding -/

/-- The opcode of a command (R87). -/
def Instr.op : Instr → BitVec 8
  | .nop _ => 0x00#8
  | .derive _ => 0x01#8
  | .trunc _ => 0x10#8
  | .reduce _ _ => 0x11#8
  | .format _ _ => 0x12#8
  | .dtf _ _ => 0x13#8
  | .hotp _ _ => 0x20#8
  | .totp _ _ => 0x21#8
  | .kopen _ => 0x30#8
  | .kpush _ _ => 0x31#8
  | .kclose _ => 0x32#8
  | .zall _ => 0x3F#8

/-- The DigitCount operand, 0 where the command takes none (R93). -/
def Instr.dig : Instr → Nat
  | .nop _ => 0
  | .derive _ => 0
  | .trunc _ => 0
  | .reduce d _ => d
  | .format d _ => d
  | .dtf d _ => d
  | .hotp d _ => d
  | .totp d _ => d
  | .kopen _ => 0
  | .kpush _ _ => 0
  | .kclose _ => 0
  | .zall _ => 0

/-- The key byte operand, 0 where the command takes none (R93). -/
def Instr.kb : Instr → Byte
  | .nop _ => 0
  | .derive _ => 0
  | .trunc _ => 0
  | .reduce _ _ => 0
  | .format _ _ => 0
  | .dtf _ _ => 0
  | .hotp _ _ => 0
  | .totp _ _ => 0
  | .kopen _ => 0
  | .kpush kb _ => kb
  | .kclose _ => 0
  | .zall _ => 0

/-- The Z bit (R84). -/
def Instr.z : Instr → Bool
  | .nop z => z
  | .derive z => z
  | .trunc z => z
  | .reduce _ z => z
  | .format _ z => z
  | .dtf _ z => z
  | .hotp _ z => z
  | .totp _ z => z
  | .kopen z => z
  | .kpush _ z => z
  | .kclose z => z
  | .zall z => z

/-- The assembled word `OP | (d << 8) | (z << 12) | (kb << 16)` (R93). -/
def encode (i : Instr) : Word :=
  i.op.setWidth 32 ||| (BitVec.ofNat 32 i.dig <<< 8) ||| ((BitVec.ofBool i.z).setWidth 32 <<< 12) |||
    (i.kb.setWidth 32 <<< 16)

/-! ## The opcode table (R88) -/

/-- One row of R88's table: a word `w` selects the opcode exactly when `w &&& mask = mtch`. -/
structure OpRow where
  mask : Word
  mtch : Word
deriving DecidableEq, Repr

/-- The row of a command (R88, spec/opcode_table.json). -/
def Instr.row : Instr → OpRow
  | .nop _ => ⟨0xFFFFEFFF, 0x00000000⟩
  | .derive _ => ⟨0xFFFFEFFF, 0x00000001⟩
  | .trunc _ => ⟨0xFFFFEFFF, 0x00000010⟩
  | .reduce _ _ => ⟨0xFFFFE0FF, 0x00000011⟩
  | .format _ _ => ⟨0xFFFFE0FF, 0x00000012⟩
  | .dtf _ _ => ⟨0xFFFFE0FF, 0x00000013⟩
  | .hotp _ _ => ⟨0xFFFFE0FF, 0x00000020⟩
  | .totp _ _ => ⟨0xFFFFE0FF, 0x00000021⟩
  | .kopen _ => ⟨0xFFFFEFFF, 0x00000030⟩
  | .kpush _ _ => ⟨0xFF00EFFF, 0x00000031⟩
  | .kclose _ => ⟨0xFFFFEFFF, 0x00000032⟩
  | .zall _ => ⟨0xFFFFEFFF, 0x0000003F⟩

/-- The twelve rows of R88's table. -/
def opcodeTable : List OpRow :=
  [⟨0xFFFFEFFF, 0x00000000⟩, ⟨0xFFFFEFFF, 0x00000001⟩, ⟨0xFFFFEFFF, 0x00000010⟩,
   ⟨0xFFFFE0FF, 0x00000011⟩, ⟨0xFFFFE0FF, 0x00000012⟩, ⟨0xFFFFE0FF, 0x00000013⟩,
   ⟨0xFFFFE0FF, 0x00000020⟩, ⟨0xFFFFE0FF, 0x00000021⟩, ⟨0xFFFFEFFF, 0x00000030⟩,
   ⟨0xFF00EFFF, 0x00000031⟩, ⟨0xFFFFEFFF, 0x00000032⟩, ⟨0xFFFFEFFF, 0x0000003F⟩]

/-! ## Assembler syntax (R93) -/

/-- The lower-case mnemonic (R93). -/
def Instr.mnemonic : Instr → String
  | .nop _ => "nop"
  | .derive _ => "derive"
  | .trunc _ => "trunc"
  | .reduce _ _ => "reduce"
  | .format _ _ => "format"
  | .dtf _ _ => "dtf"
  | .hotp _ _ => "hotp"
  | .totp _ _ => "totp"
  | .kopen _ => "kopen"
  | .kpush _ _ => "kpush"
  | .kclose _ => "kclose"
  | .zall _ => "zall"

/-- The operand as assembler text, in decimal, with the blank before it; empty where the command has none (R93). -/
def Instr.operandText (i : Instr) : String :=
  if takesDig i.op then " " ++ toString i.dig
  else if takesKb i.op then " " ++ toString i.kb.toNat
  else ""

/-- The command as assembler text: `mnemonic[.z] [operand]` (R93). -/
def Instr.asm (i : Instr) : String :=
  i.mnemonic ++ (if i.z then ".z" else "") ++ i.operandText

/-! ## The host's reading of a table word -/

/-- A command word given as a number of `nbits` bits; the bits above are 0. -/
def tableWord (nbits w : Nat) : Word := BitVec.ofNat 32 (w % 2 ^ nbits)

/-- The command the decoder reads from the word `w` of `nbits` bits, none where it refuses it. -/
def decodeTableWord (nbits w : Nat) : Option Instr :=
  match decode (tableWord nbits w) with
  | .ok i => some i
  | .error _ => none

end Sys2Proof
end

