-- ==== Sys2Proof/Machine/Agents.lean ====
section
/-! DEFINITION. What the agents outside the block can do: the named registers of the window (10_state.md R21), the
host's instructions (30_encoding.md R94), bus accesses (20_memory.md R63, R64) and the turns of a schedule (00_scope.md R12). -/

namespace Sys2Proof.Machine

/-- The host-visible registers, in the order of R21's table. -/
inductive Reg where
  | id | cfg | ctrl | status | cmd | keylen | codelen
  | tsLo | tsHi | t0Lo | t0Hi | stepLo | stepHi | ctrLo | ctrHi
  | digest0 | digest1 | digest2 | digest3 | digest4
  | bin | num | code0 | code1 | code2
deriving DecidableEq, Repr, Inhabited

/-- One bus access at a physical byte address: `MemRead(addr, size)` and `MemWrite(addr, size, v)` (00_scope.md R10).
`size` is in bytes. -/
inductive Access where
  | read  (addr size : Nat)
  | write (addr size : Nat) (v : Word)
deriving DecidableEq, Repr, Inhabited

/-- What the bus answers to an access (R63 to R65). -/
inductive BusResponse where
  /-- No access has been made. -/
  | none
  /-- A read answered with this word (R63). -/
  | data (v : Word)
  /-- A write was taken by the window, whether or not the register changed (R64). -/
  | written
  /-- A bus error response (R65). -/
  | error
deriving DecidableEq, Repr, Inhabited

/-- The host's instructions (R94), and R10's two access primitives with any address and size (log 7).
Labels are indexes into the program. -/
inductive HostInstr where
  /-- `wr REG, imm32` -/
  | wrImm (r : Reg) (v : Word)
  /-- `wr REG, rX` -/
  | wrReg (r : Reg) (x : Fin 16)
  /-- `rd rX, REG` -/
  | rd (x : Fin 16) (r : Reg)
  /-- `li rX, imm32` -/
  | li (x : Fin 16) (v : Word)
  /-- `andi rX, rY, imm` -/
  | andi (x y : Fin 16) (v : Word)
  /-- `addi rX, rY, simm`, with `simm` a signed integer -/
  | addi (x y : Fin 16) (simm : Int)
  /-- `bnez rX, L` -/
  | bnez (x : Fin 16) (l : Nat)
  /-- `beqz rX, L` -/
  | beqz (x : Fin 16) (l : Nat)
  /-- `rX <- MemRead(addr, size)` -/
  | memRead (x : Fin 16) (addr size : Nat)
  /-- `MemWrite(addr, size, v)` -/
  | memWrite (addr size : Nat) (v : Word)
deriving DecidableEq, Repr, Inhabited

/-- One turn of a schedule: which agent takes the next step, with the choice that is that agent's own (R12). -/
inductive Turn where
  /-- HOST runs the next instruction of its program (R94). -/
  | host
  /-- Another bus master makes one access (60_exceptions.md R185; log 19). -/
  | bus (a : Access)
  /-- ENGINE takes its step (70_reset_and_hazards.md R210). -/
  | engine
  /-- HMACU answers the outstanding request, OK or FAIL (41_hotp_core.md R132; log 3). -/
  | hmacu (ok : Bool)
  /-- The RESET event (R200). -/
  | reset
deriving DecidableEq, Repr, Inhabited

end Sys2Proof.Machine
end

