-- ==== Sys2Proof/Config.lean ====
section
/-! DEFINITION. The implementation parameters (00_scope.md R6) and the free values. A constant with no body is one the
spec leaves OPEN or free: no proof can see its value. -/

namespace Sys2Proof.Config

/-- `KEY_MAX`, the capacity of the key buffer in bytes, decided 64 (R6, 92_eei_decisions.md D10; log 8). -/
abbrev keyMax : Nat := 64

/-- `DIGIT_EXT`, decided 0 (R6, 92_eei_decisions.md D7; log 8). -/
def digitExt : Bool := false

/-- The digest width in bytes, fixed (R6). -/
abbrev digestBytes : Nat := 20

/-- Which multiple of 0x100 `BASE` is: OPEN (R6, 92_eei_decisions.md D3; log 5). -/
opaque baseIndex : Nat

/-- `BASE`, the physical byte address of the register window, "A multiple of 0x100" (R6). -/
def base : Nat := 0x100 * baseIndex

/-- `HMAC_FN`, "(key bytes, 8-byte message) to a 20-byte digest": OPEN (R6, 92_eei_decisions.md D8; log 4). -/
opaque hmacFn : List Byte → Vector Byte 8 → Vector Byte 20

/-- The turn taken at each place past the end of a schedule: free, because "Any agent with an enabled step may be
scheduled next" (R12; log 1). -/
opaque freeTurn : Nat → Machine.Turn

/-- ID, the constant 0x48445445 (10_state.md R22). -/
def idWord : Word := 0x48445445

/-- CFG for given parameters (10_state.md R23): REV 1, DIGEST_BYTES 20, DIGIT_EXT, KEY_MAX. -/
def cfgWordOf (keyMax : Nat) (digitExt : Bool) : Word :=
  (1#8 ++ BitVec.ofNat 8 digestBytes ++ 0#7 ++ BitVec.ofBool digitExt ++ BitVec.ofNat 8 keyMax : BitVec 32)

/-- CFG of this block (R23). -/
def cfgWord : Word := cfgWordOf keyMax digitExt

end Sys2Proof.Config
end

