-- ==== Sys2Proof/Machine/State.lean ====
section
/-! DEFINITION. The state of the machine as plain data (10_state.md), the state after reset (R50), the reasons a step
can stop. -/

namespace Sys2Proof.Machine

/-- ENG, the ENGINE state (R44). -/
inductive Eng where
  | idle
  | pend
  | wait
deriving DecidableEq, Repr

/-- An outstanding HMAC request, "a record {key: byte string, msg: 8-byte string}" (R47). -/
structure Request where
  key : List Byte
  msg : Vector Byte 8
deriving DecidableEq, Repr

/-- The HOST agent: its scratch registers r0 to r15, its program and its place in it (30_encoding.md R94). -/
structure HostAgent where
  regs : Vector Word 16
  prog : List HostInstr
  pc   : Nat
deriving DecidableEq, Repr

/-- The machine: the block's registers and internal state (R21 to R47), then what stands outside the block. -/
structure State where
  /-- CTRL.IRQ_EN (R24). -/
  irqEn    : Bool
  /-- STATUS.BUSY (R26). -/
  busy     : Bool
  /-- STATUS.DONE (R27). -/
  done     : Bool
  /-- STATUS.OVR (R28). -/
  ovr      : Bool
  /-- STATUS.SCOPE (R29). -/
  scope    : Bool
  /-- STATUS.ERR (R30). -/
  err      : BitVec 4
  /-- STATUS.INFO (R31). -/
  info     : BitVec 8
  /-- KEYLEN (R33). -/
  keylen   : BitVec 8
  /-- CODELEN (R34). -/
  codelen  : BitVec 4
  /-- TS (R35). -/
  ts       : DWord
  /-- T0 (R36). -/
  t0       : DWord
  /-- STEP (R37). -/
  stepSize : DWord
  /-- CTR (R38). -/
  ctr      : DWord
  /-- DIGEST, the bytes `dg[0..20)` (R39). -/
  digest   : Vector Byte 20
  /-- BIN (R40). -/
  bin      : Word
  /-- NUM (R41). -/
  num      : Word
  /-- CODE, the characters `cs[0..12)` (R42). -/
  code     : Vector Byte 12
  /-- KEYBUF (R43). -/
  keybuf   : Vector Byte Config.keyMax
  /-- ENG (R44). -/
  eng      : Eng
  /-- PCMD (R45). -/
  pcmd     : Word
  /-- CLATCH (R46). -/
  clatch   : DWord
  /-- REQ (R47). -/
  req      : Option Request
  /-- The bus's answer to the last access (20_memory.md R63 to R65): outside the block. -/
  bus      : BusResponse
  /-- The HOST agent (R94): outside the block. -/
  host     : HostAgent
  /-- The turns already chosen, the next one first: the model's own (log 1). -/
  sched    : List Turn
  /-- How many turns past the schedule's end were drawn: the model's own (log 1). -/
  draws    : Nat
deriving DecidableEq, Repr

/-- The host before it has run anything (log 9). -/
def HostAgent.start : HostAgent := { regs := Vector.replicate 16 0, prog := [], pc := 0 }

/-- The state right after reset (R50, R201). -/
def State.reset : State :=
  { irqEn := false, busy := false, done := false, ovr := false, scope := false, err := 0, info := 0,
    keylen := 0, codelen := 0, ts := 0, t0 := 0, stepSize := 0, ctr := 0,
    digest := Vector.replicate 20 0, bin := 0, num := 0, code := Vector.replicate 12 0,
    keybuf := Vector.replicate Config.keyMax 0, eng := .idle, pcmd := 0, clatch := 0, req := none,
    bus := .none, host := .start, sched := [], draws := 0 }

/-- Why a step stops. No command of the block stops a step. -/
inductive Fault where
  /-- The HOST's own access is not an aligned 32-bit access of a mapped register: a bus error, "a fault of the HOST
  agent" (20_memory.md R65). Raised by `hostStep` alone. Safe: what the host does next belongs to the platform, and no
  claim about it can be proved (log 7). -/
  | busError (addr size : Nat)
deriving DecidableEq, Repr

/-- Why the model gives a step no meaning. -/
inductive Refusal where
  /-- An instruction with no meaning yet, raised by `exec`'s refused arms. No arm is refused. Safe. -/
  | notModelled (mnemonic : String)
deriving DecidableEq, Repr

end Sys2Proof.Machine
end

