-- ==== Sys2Proof/Machine/Flags.lean ====
section
/-! DEFINITION. The error codes (60_exceptions.md R171, R172), the STATUS and CTRL words (10_state.md R24, R25) and the
interrupt output (R48). -/

namespace Sys2Proof.Machine

/-- The sub-causes of R172's table. -/
inductive CmdError where
  | stepZero | tsBeforeT0 | digitsUnsupported | formatRange
  | keyEmpty | hmacFail
  | reservedOpcode | reservedField
  | scopeClosed | keyFull
deriving DecidableEq, Repr

/-- The error kind, STATUS.ERR (R171): 1 InvalidParameter, 2 CryptoFailure, 3 IllegalCommand, 4 KeyFault. -/
def CmdError.errCode : CmdError → BitVec 4
  | .stepZero => 1
  | .tsBeforeT0 => 1
  | .digitsUnsupported => 1
  | .formatRange => 1
  | .keyEmpty => 2
  | .hmacFail => 2
  | .reservedOpcode => 3
  | .reservedField => 3
  | .scopeClosed => 4
  | .keyFull => 4

/-- The sub-cause, STATUS.INFO (R172). -/
def CmdError.infoCode : CmdError → BitVec 8
  | .stepZero => 1
  | .tsBeforeT0 => 2
  | .digitsUnsupported => 3
  | .formatRange => 4
  | .keyEmpty => 1
  | .hmacFail => 2
  | .reservedOpcode => 1
  | .reservedField => 2
  | .scopeClosed => 1
  | .keyFull => 2

/-- The sub-causes of R172's table, each once. -/
def allCmdErrors : List CmdError :=
  [.stepZero, .tsBeforeT0, .digitsUnsupported, .formatRange, .keyEmpty, .hmacFail,
   .reservedOpcode, .reservedField, .scopeClosed, .keyFull]

/-- The sub-cause of an illegal word (30_encoding.md R89). -/
def illegalError : Illegal → CmdError
  | .reservedOpcode => .reservedOpcode
  | .reservedField => .reservedField

/-- STATUS as the host reads it, the fields of R25's table from bit 31 down. -/
def statusWord (s : State) : Word :=
  (0#8 ++ s.info ++ 0#4 ++ s.err ++ 0#4 ++ BitVec.ofBool s.scope ++ BitVec.ofBool s.ovr ++
    BitVec.ofBool s.done ++ BitVec.ofBool s.busy : BitVec 32)

/-- CTRL as the host reads it: IRQ_EN in bit 0, the rest reserved (R24). -/
def ctrlWord (s : State) : Word := (BitVec.ofBool s.irqEn).setWidth 32

/-- The interrupt output, `irq = CTRL.IRQ_EN AND STATUS.DONE` (R48, R178). -/
def State.irq (s : State) : Bool := s.irqEn && s.done

end Sys2Proof.Machine
end

