-- ==== Sys2Proof/Machine/Operands.lean ====
section
/-! DEFINITION. The values commands compute from their operands: DigitCount validation, counter derivation, the byte
orders, dynamic truncation, reduction and decimal formatting (00_scope.md R9, 40_counter.md R100, 41_hotp_core.md R110 to R116). -/

namespace Sys2Proof.Machine

/-- `DIGIT_SET` for a value of `DIGIT_EXT` (R6). -/
def digitSetOf (digitExt : Bool) : List Nat := if digitExt then [6, 7, 8, 9, 10] else [6, 7, 8]

/-- `DIGIT_SET` of this block (R6). -/
def digitSet : List Nat := digitSetOf Config.digitExt

/-- `valid(d)` (R110; log 10). -/
def validDigits (d : Nat) : Bool := digitSet.contains d

/-- The counter-derivation function CD (R100): the two checks in order, then subtraction and division of integers. -/
def deriveCounter (ts t0 step : DWord) : Except CmdError DWord :=
  if step = 0 then .error .stepZero
  else if ts < t0 then .error .tsBeforeT0
  else .ok (BitVec.ofNat 64 ((ts.toNat - t0.toNat) / step.toNat))

/-- `BE8(c)`, whose byte `j` is `c[63-8j : 56-8j]` (R9). -/
def be8 (c : DWord) : Vector Byte 8 := Vector.ofFn fun j => c.extractLsb' (56 - 8 * j.val) 8

/-- The offset `dg[19] & 0x0F`, at most 15 (R111). -/
def dynOffset (dg : Vector Byte 20) : Fin 16 := ⟨(dg[19]).toNat % 16, Nat.mod_lt _ (by decide)⟩

/-- `BE32(dg, i)` for an offset of at most 15 (R9, R111). -/
def be32 (dg : Vector Byte 20) (i : Fin 16) : Word :=
  (dg[i.val] ++ dg[i.val + 1] ++ dg[i.val + 2] ++ dg[i.val + 3] : BitVec 32)

/-- Dynamic truncation `DT` (R112). -/
def dynTruncate (dg : Vector Byte 20) : Word := be32 dg (dynOffset dg) &&& 0x7FFFFFFF

/-- Reduction `RED(b, d) = b mod 10^d` (R114). -/
def reduceDigits (b : Word) (d : Nat) : Word := BitVec.ofNat 32 (b.toNat % 10 ^ d)

/-- Character `i` of `DEC(n, k)` (R116). -/
def decChar (n k i : Nat) : Byte := BitVec.ofNat 8 (0x30 + n / 10 ^ (k - 1 - i) % 10)

/-- The twelve CODE bytes that hold `DEC(n, k)`: its k characters, then 0x00 (R119). -/
def codeBytes (n k : Nat) : Vector Byte 12 :=
  Vector.ofFn fun i => if i.val < k then decChar n k i.val else 0

/-- `KEYBUF[0..KEYLEN)`, the key held (R131). -/
def State.keyBytes (s : State) : List Byte := s.keybuf.toList.take s.keylen.toNat

end Sys2Proof.Machine
end

