-- ==== Sys2Proof/Machine/Ops.lean ====
section
/-! DEFINITION. The shared operations over the state: zeroization, the code registers, the HMAC request, accept and
completion (41_hotp_core.md R119, R131, 43_secret.md R151, 60_exceptions.md R176, R177). -/

namespace Sys2Proof.Machine

/-- The outcome of one step. -/
abbrev Result := Host.Outcome State Fault Refusal

/-- ZEROIZE_SCOPE (R151). -/
def zeroizeScope (s : State) : State :=
  { s with keybuf := Vector.replicate Config.keyMax 0, keylen := 0, scope := false }

/-- `for j in 0..19: dg[j] <- 0x00` (R155, R176). -/
def zeroDigest (s : State) : State := { s with digest := Vector.replicate 20 0 }

/-- `invalidate_code()` (R119). -/
def invalidateCode (s : State) : State := { s with code := Vector.replicate 12 0, codelen := 0 }

/-- `write_code(n, k)` (R119). -/
def writeCode (n : Word) (k : Nat) (s : State) : State :=
  { s with code := codeBytes n.toNat k, codelen := BitVec.ofNat 4 k }

/-- `issue_hmac(key, BE8(c))` after `CLATCH <- c`, with key a copy of `KEYBUF[0..KEYLEN)` (R131, R135, R140). -/
def issueHmac (c : DWord) (s : State) : State :=
  { s with clatch := c, req := some { key := s.keyBytes, msg := be8 c }, eng := .wait }

/-- The part of `finish` that "the command was decoded as HOTP or TOTP" guards: DIGEST and REQ are erased (R176). -/
def eraseWorkingCopies (s : State) : State := { zeroDigest s with req := none }

/-- The completion procedure `finish(err, info)` (R176). `hmac` says that the command was decoded as HOTP or TOTP; `z` is
PCMD[12], the command's Z bit (log 14). -/
def finish (hmac z : Bool) (err : BitVec 4) (info : BitVec 8) (s : State) : State :=
  let s₁ := { s with err := err, info := info }
  let s₂ := if hmac then eraseWorkingCopies s₁ else s₁
  let s₃ := { s₂ with clatch := 0 }
  let s₄ := if z then zeroizeScope s₃ else s₃
  { s₄ with pcmd := 0, eng := .idle, busy := false, done := true }

/-- `complete()` is `finish(0, 0)` (R176). -/
def complete (hmac z : Bool) (s : State) : State := finish hmac z 0 0 s

/-- `raise E(i)` is `finish(code(E), i)` (R176). -/
def raise (hmac z : Bool) (e : CmdError) (s : State) : State := finish hmac z e.errCode e.infoCode s

/-- `invalidate_code(); raise E(i)`: how a command that would produce a Code fails (R119). -/
def raiseNoCode (hmac z : Bool) (e : CmdError) (s : State) : State := raise hmac z e (invalidateCode s)

/-- `accept(w)` (R177). -/
def accept (w : Word) (s : State) : State :=
  { s with pcmd := w, eng := .pend, busy := true, done := false, err := 0, info := 0 }

/-- The completion of a word that is no command: IllegalCommand, Z honoured, never decoded as HOTP or TOTP (R89, R176). -/
def rejectIllegal (e : Illegal) (s : State) : State := raise false (zField s.pcmd) (illegalError e) s

/-- The RESET event: every piece of the block's state takes its reset value; what stands outside the block stays
(70_reset_and_hazards.md R200 to R203; log 12). -/
def resetBlock (s : State) : State :=
  { State.reset with bus := s.bus, host := s.host, sched := s.sched, draws := s.draws }

end Sys2Proof.Machine
end

