-- ==== Sys2Proof/Machine/Counter.lean ====
section
/-! DEFINITION. The counter-derivation unit: DERIVE (40_counter.md R101). -/

namespace Sys2Proof.Machine

/-- DERIVE (R101): `CTR <- CD(TS, T0, STEP)`, or the failure with CTR unchanged. -/
def execDerive (z : Bool) (s : State) : Result :=
  match deriveCounter s.ts s.t0 s.stepSize with
  | .error e => .next (raise false z e s)
  | .ok r => .next (complete false z { s with ctr := r })

end Sys2Proof.Machine
end

