-- ==== Sys2Proof/Machine/Truncation.lean ====
section
/-! DEFINITION. The truncation engine: TRUNC, REDUCE, FORMAT, DTF (41_hotp_core.md R113 to R119). -/

namespace Sys2Proof.Machine

/-- TRUNC (R113): `BIN <- DT(dg)`. -/
def execTrunc (z : Bool) (s : State) : Result :=
  .next (complete false z { s with bin := dynTruncate s.digest })

/-- REDUCE (R115): `NUM <- RED(BIN, d)`; an unsupported DigitCount leaves NUM and CODE alone. -/
def execReduce (d : Nat) (z : Bool) (s : State) : Result :=
  if validDigits d then .next (complete false z { s with num := reduceDigits s.bin d })
  else .next (raise false z .digitsUnsupported s)

/-- FORMAT (R117): write NUM as d characters; either error invalidates CODE. -/
def execFormat (d : Nat) (z : Bool) (s : State) : Result :=
  if validDigits d then
    if s.num.toNat ≥ 10 ^ d then .next (raiseNoCode false z .formatRange s)
    else .next (complete false z (writeCode s.num d s))
  else .next (raiseNoCode false z .digitsUnsupported s)

/-- The result registers that truncation of a digest writes: BIN, NUM, CODE, CODELEN (R118, R136). -/
def codeFromDigest (dg : Vector Byte 20) (d : Nat) (s : State) : State :=
  writeCode (reduceDigits (dynTruncate dg) d) d
    { s with bin := dynTruncate dg, num := reduceDigits (dynTruncate dg) d }

/-- DTF (R118): TRUNC, REDUCE and FORMAT of the host-written DIGEST, which it does not zero. -/
def execDtf (d : Nat) (z : Bool) (s : State) : Result :=
  if validDigits d then .next (complete false z (codeFromDigest s.digest d s))
  else .next (raiseNoCode false z .digitsUnsupported s)

end Sys2Proof.Machine
end

