-- ==== Sys2Proof/Machine/Hotp.lean ====
section
/-! DEFINITION. HOTP and TOTP: the first phases, which issue the HMAC request, and the second phases, which consume the
response (41_hotp_core.md R130 to R136, 42_totp.md R140, R141). -/

namespace Sys2Proof.Machine

/-- What HMACU answers: "either OK(digest), with a 20-byte digest, or FAIL" (R130). -/
inductive HmacResponse where
  | ok (digest : Vector Byte 20)
  | fail
deriving DecidableEq, Repr

/-- HOTP, first phase (R135). -/
def execHotp (d : Nat) (z : Bool) (s : State) : Result :=
  if validDigits d then
    if s.keylen = 0 then .next (raiseNoCode true z .keyEmpty s)
    else .next (issueHmac s.ctr s)
  else .next (raiseNoCode true z .digitsUnsupported s)

/-- TOTP, first phase (R140): CTR is not written yet. -/
def execTotp (d : Nat) (z : Bool) (s : State) : Result :=
  if validDigits d then
    match deriveCounter s.ts s.t0 s.stepSize with
    | .error e => .next (raiseNoCode true z e s)
    | .ok r =>
      if s.keylen = 0 then .next (raiseNoCode true z .keyEmpty s)
      else .next (issueHmac r s)
  else .next (raiseNoCode true z .digitsUnsupported s)

/-- HOTP, second phase (R136). -/
def hotpRespond (d : Nat) (z : Bool) (resp : HmacResponse) (s : State) : State :=
  match resp with
  | .fail => raiseNoCode true z .hmacFail s
  | .ok dg => complete true z (codeFromDigest dg d { s with digest := dg })

/-- TOTP, second phase (R141): the derived counter is committed only now. -/
def totpRespond (d : Nat) (z : Bool) (resp : HmacResponse) (s : State) : State :=
  match resp with
  | .fail => raiseNoCode true z .hmacFail s
  | .ok dg => complete true z { codeFromDigest dg d { s with digest := dg } with ctr := s.clatch }

/-- The second phase of the waiting command, the one PCMD holds (R132). No run reaches a WAIT with another word in PCMD
(log 13). -/
def respond (resp : HmacResponse) (s : State) : State :=
  match decode s.pcmd with
  | .ok (.hotp d z) => hotpRespond d z resp s
  | .ok (.totp d z) => totpRespond d z resp s
  | .ok (.nop _) => s
  | .ok (.derive _) => s
  | .ok (.trunc _) => s
  | .ok (.reduce _ _) => s
  | .ok (.format _ _) => s
  | .ok (.dtf _ _) => s
  | .ok (.kopen _) => s
  | .ok (.kpush _ _) => s
  | .ok (.kclose _) => s
  | .ok (.zall _) => s
  | .error _ => s

/-- The response HMACU chooses: `OK(HMAC_FN(REQ.key, REQ.msg))` or FAIL, "Two responses are always admitted" (R132). -/
def hmacResponse (ok : Bool) (r : Request) : HmacResponse :=
  if ok then .ok (Config.hmacFn r.key r.msg) else .fail

/-- HMACU's step: the response step while ENG = WAIT, and otherwise none, so that a late answer is dropped (R132, R133). -/
def hmacuStep (ok : Bool) (s : State) : State :=
  match s.eng, s.req with
  | .wait, some r => respond (hmacResponse ok r) s
  | .wait, none => s
  | .pend, _ => s
  | .idle, _ => s

end Sys2Proof.Machine
end

