-- ==== Sys2Proof/Machine/Secret.lean ====
section
/-! DEFINITION. Secret-material control: KOPEN, KPUSH, KCLOSE, ZALL, and NOP (43_secret.md R152 to R156). -/

namespace Sys2Proof.Machine

/-- NOP (R156). -/
def execNop (z : Bool) (s : State) : Result := .next (complete false z s)

/-- KOPEN (R152): a zeroed buffer and an open scope. -/
def execKopen (z : Bool) (s : State) : Result :=
  .next (complete false z
    { s with keybuf := Vector.replicate Config.keyMax 0, keylen := 0, scope := true })

/-- KPUSH (R153): SCOPE_CLOSED first, then KEY_FULL; otherwise `KEYBUF[KEYLEN] <- kb` and `KEYLEN <- KEYLEN + 1`. -/
def execKpush (kb : Byte) (z : Bool) (s : State) : Result :=
  if s.scope = false then .next (raise false z .scopeClosed s)
  else if s.keylen.toNat = Config.keyMax then .next (raise false z .keyFull s)
  else .next (complete false z
    { s with keybuf := s.keybuf.setIfInBounds s.keylen.toNat kb, keylen := s.keylen + 1 })

/-- KCLOSE (R154). -/
def execKclose (z : Bool) (s : State) : Result := .next (complete false z (zeroizeScope s))

/-- ZALL (R155): every data register and the scope. -/
def execZall (z : Bool) (s : State) : Result :=
  .next (complete false z
    { invalidateCode { zeroDigest (zeroizeScope s) with bin := 0, num := 0 } with
        ts := 0, t0 := 0, stepSize := 0, ctr := 0 })

end Sys2Proof.Machine
end

