-- ==== Sys2Proof/Machine/Dispatch.lean ====
section
/-! DEFINITION. The ENGINE step of a decoded command: one arm per constructor of Instr. -/

namespace Sys2Proof.Machine

def exec (i : Instr) (s : State) : Host.Outcome State Fault Refusal :=
  match i with
  | .nop z => Sys2Proof.Machine.execNop z s
  | .derive z => Sys2Proof.Machine.execDerive z s
  | .trunc z => Sys2Proof.Machine.execTrunc z s
  | .reduce d z => Sys2Proof.Machine.execReduce d z s
  | .format d z => Sys2Proof.Machine.execFormat d z s
  | .dtf d z => Sys2Proof.Machine.execDtf d z s
  | .hotp d z => Sys2Proof.Machine.execHotp d z s
  | .totp d z => Sys2Proof.Machine.execTotp d z s
  | .kopen z => Sys2Proof.Machine.execKopen z s
  | .kpush kb z => Sys2Proof.Machine.execKpush kb z s
  | .kclose z => Sys2Proof.Machine.execKclose z s
  | .zall z => Sys2Proof.Machine.execZall z s

end Sys2Proof.Machine
end

