-- ==== Sys2Proof/Machine/Window.lean ====
section
/-! DEFINITION. The register window: the register map (10_state.md R21), host reads (20_memory.md R63) and host writes
(R64), by register, by offset and by physical address. -/

namespace Sys2Proof.Machine

/-- The byte offset of a register from `BASE` (R21). -/
def Reg.off : Reg → Nat
  | .id => 0x00
  | .cfg => 0x04
  | .ctrl => 0x08
  | .status => 0x0C
  | .cmd => 0x10
  | .keylen => 0x14
  | .codelen => 0x18
  | .tsLo => 0x20
  | .tsHi => 0x24
  | .t0Lo => 0x28
  | .t0Hi => 0x2C
  | .stepLo => 0x30
  | .stepHi => 0x34
  | .ctrLo => 0x38
  | .ctrHi => 0x3C
  | .digest0 => 0x40
  | .digest1 => 0x44
  | .digest2 => 0x48
  | .digest3 => 0x4C
  | .digest4 => 0x50
  | .bin => 0x60
  | .num => 0x64
  | .code0 => 0x70
  | .code1 => 0x74
  | .code2 => 0x78

/-- Every register, in the order of R21's table. -/
def allRegs : List Reg :=
  [.id, .cfg, .ctrl, .status, .cmd, .keylen, .codelen] ++
  [.tsLo, .tsHi, .t0Lo, .t0Hi, .stepLo, .stepHi, .ctrLo, .ctrHi] ++
  [.digest0, .digest1, .digest2, .digest3, .digest4] ++
  [.bin, .num, .code0, .code1, .code2]

/-- The register at an offset of the window; none at a reserved or unaligned offset, and past the window (R21, R66). -/
def regAtOffset (off : Nat) : Option Reg := allRegs.find? fun r => r.off == off

/-- The register an access reaches: only an aligned 32-bit access at a mapped offset reaches one (R63 to R65; log 6). -/
def regAt (addr size : Nat) : Option Reg :=
  if size ≠ 4 ∨ addr < Config.base then none else regAtOffset (addr - Config.base)

/-- The low half of a 64-bit register (R62 a). -/
def loHalf (v : DWord) : Word := v.extractLsb' 0 32

/-- The high half of a 64-bit register (R62 a). -/
def hiHalf (v : DWord) : Word := v.extractLsb' 32 32

/-- A 64-bit register with its low half replaced (R64). -/
def withLoHalf (v : DWord) (w : Word) : DWord := (hiHalf v ++ w : BitVec 64)

/-- A 64-bit register with its high half replaced (R64). -/
def withHiHalf (v : DWord) (w : Word) : DWord := (w ++ loHalf v : BitVec 64)

/-- CODEk as the host reads it (R42). -/
def codeWord (cs : Vector Byte 12) (k : Fin 3) : Word :=
  (cs[4 * k.val + 3] ++ cs[4 * k.val + 2] ++ cs[4 * k.val + 1] ++ cs[4 * k.val] : BitVec 32)

/-- A host write of a word to DIGESTk (R39). -/
def withDigestWord (dg : Vector Byte 20) (k : Nat) (v : Word) : Vector Byte 20 :=
  Vector.ofFn fun i => if i.val / 4 = k then v.extractLsb' (8 * (i.val % 4)) 8 else dg[i.val]

/-- What a host read of a register returns (R63): write-only registers read 0 (R67), reserved bits read 0. -/
def readReg (r : Reg) (s : State) : Word :=
  match r with
  | .id => Config.idWord
  | .cfg => Config.cfgWord
  | .ctrl => ctrlWord s
  | .status => statusWord s
  | .cmd => 0
  | .keylen => s.keylen.setWidth 32
  | .codelen => s.codelen.setWidth 32
  | .tsLo => loHalf s.ts
  | .tsHi => hiHalf s.ts
  | .t0Lo => loHalf s.t0
  | .t0Hi => hiHalf s.t0
  | .stepLo => loHalf s.stepSize
  | .stepHi => hiHalf s.stepSize
  | .ctrLo => loHalf s.ctr
  | .ctrHi => hiHalf s.ctr
  | .digest0 => 0
  | .digest1 => 0
  | .digest2 => 0
  | .digest3 => 0
  | .digest4 => 0
  | .bin => s.bin
  | .num => s.num
  | .code0 => codeWord s.code 0
  | .code1 => codeWord s.code 1
  | .code2 => codeWord s.code 2

/-- A host write while BUSY = 0 to a register other than CTRL and STATUS (R64): a read-only register ignores it. -/
def writeIdle (r : Reg) (v : Word) (s : State) : State :=
  match r with
  | .id => s
  | .cfg => s
  | .ctrl => s
  | .status => s
  | .cmd => accept v s
  | .keylen => s
  | .codelen => s
  | .tsLo => { s with ts := withLoHalf s.ts v }
  | .tsHi => { s with ts := withHiHalf s.ts v }
  | .t0Lo => { s with t0 := withLoHalf s.t0 v }
  | .t0Hi => { s with t0 := withHiHalf s.t0 v }
  | .stepLo => { s with stepSize := withLoHalf s.stepSize v }
  | .stepHi => { s with stepSize := withHiHalf s.stepSize v }
  | .ctrLo => { s with ctr := withLoHalf s.ctr v }
  | .ctrHi => { s with ctr := withHiHalf s.ctr v }
  | .digest0 => { s with digest := withDigestWord s.digest 0 v }
  | .digest1 => { s with digest := withDigestWord s.digest 1 v }
  | .digest2 => { s with digest := withDigestWord s.digest 2 v }
  | .digest3 => { s with digest := withDigestWord s.digest 3 v }
  | .digest4 => { s with digest := withDigestWord s.digest 4 v }
  | .bin => s
  | .num => s
  | .code0 => s
  | .code1 => s
  | .code2 => s

/-- A host write to CTRL, accepted even while BUSY (R24, R64). -/
def writeCtrl (v : Word) (s : State) : State := { s with irqEn := v.getLsbD 0 }

/-- A host write to STATUS, accepted even while BUSY: bits 1 and 2 are write-1-to-clear (R25, R64). -/
def writeStatus (v : Word) (s : State) : State :=
  { s with done := s.done && !v.getLsbD 1, ovr := s.ovr && !v.getLsbD 2 }

/-- A host write of a word to a register (R64): CTRL and STATUS always; otherwise, while BUSY = 1 the write is ignored
and OVR set (R68). -/
def writeReg (r : Reg) (v : Word) (s : State) : State :=
  if r = .ctrl then writeCtrl v s
  else if r = .status then writeStatus v s
  else if s.busy then { s with ovr := true }
  else writeIdle r v s

/-- The bus's answer to `MemRead(addr, size)` (R63). No read has a side effect on any state of the block. -/
def busRead (addr size : Nat) (s : State) : BusResponse :=
  match regAt addr size with
  | none => .error
  | some r => .data (readReg r s)

/-- `MemWrite(addr, size, v)` (R64), with the bus's answer recorded; a non-conforming access changes no state of the
block (R65). -/
def busWrite (addr size : Nat) (v : Word) (s : State) : State :=
  match regAt addr size with
  | none => { s with bus := .error }
  | some r => { writeReg r v s with bus := .written }

/-- One bus access of any master, with the bus's answer recorded. -/
def busAccess (a : Access) (s : State) : State :=
  match a with
  | .read addr size => { s with bus := busRead addr size s }
  | .write addr size v => busWrite addr size v s

end Sys2Proof.Machine
end

