-- ==== Sys2Proof/Machine/HostProgram.lean ====
section
/-! DEFINITION. The HOST agent: its instructions and the pseudo-instructions of host programs (30_encoding.md R93, R94). -/

namespace Sys2Proof.Machine

/-- A host scratch register. -/
def State.hreg (s : State) (x : Fin 16) : Word := s.host.regs[x.val]

/-- Write a host scratch register. -/
def setHreg (x : Fin 16) (v : Word) (s : State) : State :=
  { s with host := { s.host with regs := s.host.regs.set x.val v } }

/-- Go to a place in the host program. -/
def hostGoto (l : Nat) (s : State) : State := { s with host := { s.host with pc := l } }

/-- Go on to the next host instruction. -/
def hostNext (s : State) : State := hostGoto (s.host.pc + 1) s

/-- A branch: to the label where the condition holds, else on. -/
def hostBranch (taken : Bool) (l : Nat) (s : State) : State := if taken then hostGoto l s else hostNext s

/-- `MemWrite(BASE + off(REG), 4, v)` (R94): always an aligned access of a mapped register, so the write of that register
(log 20). -/
def hostWrite (r : Reg) (v : Word) (s : State) : State := { writeReg r v s with bus := .written }

/-- `rX <- MemRead(BASE + off(REG), 4)` (R94). -/
def hostRead (x : Fin 16) (r : Reg) (s : State) : State :=
  setHreg x (readReg r s) { s with bus := .data (readReg r s) }

/-- `rX <- MemRead(addr, size)` at any address: a bus error is a fault of the HOST (R63, R65). -/
def hostMemRead (x : Fin 16) (addr size : Nat) (s : State) : Result :=
  match regAt addr size with
  | none => .fault (.busError addr size)
  | some r => .next (hostNext (hostRead x r s))

/-- `MemWrite(addr, size, v)` at any address: a bus error is a fault of the HOST (R64, R65). -/
def hostMemWrite (addr size : Nat) (v : Word) (s : State) : Result :=
  match regAt addr size with
  | none => .fault (.busError addr size)
  | some r => .next (hostNext (hostWrite r v s))

/-- `(rY + simm) mod 2^32` with `simm` signed (R94). -/
def addSigned (v : Word) (simm : Int) : Word := BitVec.ofInt 32 ((v.toNat : Int) + simm)

/-- One host instruction (R94). -/
def execHost (i : HostInstr) (s : State) : Result :=
  match i with
  | .wrImm r v => .next (hostNext (hostWrite r v s))
  | .wrReg r x => .next (hostNext (hostWrite r (s.hreg x) s))
  | .rd x r => .next (hostNext (hostRead x r s))
  | .li x v => .next (hostNext (setHreg x v s))
  | .andi x y v => .next (hostNext (setHreg x (s.hreg y &&& v) s))
  | .addi x y simm => .next (hostNext (setHreg x (addSigned (s.hreg y) simm) s))
  | .bnez x l => .next (hostBranch (s.hreg x != 0) l s)
  | .beqz x l => .next (hostBranch (s.hreg x == 0) l s)
  | .memRead x addr size => hostMemRead x addr size s
  | .memWrite addr size v => hostMemWrite addr size v s

/-- HOST's step: its next instruction; "A host program ends when its last instruction has run"
(70_reset_and_hazards.md R212), and then HOST has no step (log 2, log 18). -/
def hostStep (s : State) : Result :=
  match s.host.prog[s.host.pc]? with
  | none => .next s
  | some i => execHost i s

/-! ## Pseudo-instructions (R94)

A pseudo-instruction with a label of its own takes `place`, the index in the program at which it stands. -/

/-- A 64-bit register by its halves. -/
inductive Reg64 where
  | ts | t0 | step | ctr
deriving DecidableEq, Repr

/-- `R_LO`. -/
def Reg64.lo : Reg64 → Reg
  | .ts => .tsLo
  | .t0 => .t0Lo
  | .step => .stepLo
  | .ctr => .ctrLo

/-- `R_HI`. -/
def Reg64.hi : Reg64 → Reg
  | .ts => .tsHi
  | .t0 => .t0Hi
  | .step => .stepHi
  | .ctr => .ctrHi

/-- `cmd C`: `wr CMD, encode(C)`. -/
def pseudoCmd (c : Instr) : List HostInstr := [.wrImm .cmd (encode c)]

/-- `wait`: poll STATUS until BUSY = 0. -/
def pseudoWait (place : Nat) : List HostInstr := [.rd 15 .status, .andi 15 15 1, .bnez 15 place]

/-- `run C`: `cmd C ; wait`. -/
def pseudoRun (place : Nat) (c : Instr) : List HostInstr := pseudoCmd c ++ pseudoWait (place + 1)

/-- `wr64 R, imm64`. -/
def pseudoWr64 (r : Reg64) (v : DWord) : List HostInstr :=
  [.wrImm r.lo (loHalf v), .wrImm r.hi (hiHalf v)]

/-- The word a host writes to DIGESTk for a digest: `h[4k] | h[4k+1]<<8 | h[4k+2]<<16 | h[4k+3]<<24`. -/
def digestWord (h : Vector Byte 20) (k : Fin 5) : Word :=
  (h[4 * k.val + 3] ++ h[4 * k.val + 2] ++ h[4 * k.val + 1] ++ h[4 * k.val] : BitVec 32)

/-- `wrdigest h`. -/
def pseudoWrdigest (h : Vector Byte 20) : List HostInstr :=
  [.wrImm .digest0 (digestWord h 0), .wrImm .digest1 (digestWord h 1), .wrImm .digest2 (digestWord h 2),
   .wrImm .digest3 (digestWord h 3), .wrImm .digest4 (digestWord h 4)]

/-- The `run kpush bi` lines of `loadkey`. -/
def pseudoPushes (place : Nat) : List Byte → List HostInstr
  | [] => []
  | b :: bs => pseudoRun place (.kpush b false) ++ pseudoPushes (place + 4) bs

/-- `loadkey b0 ... bn-1`: `run kopen`, then `run kpush bi` for each byte. -/
def pseudoLoadkey (place : Nat) (key : List Byte) : List HostInstr :=
  pseudoRun place (.kopen false) ++ pseudoPushes (place + 4) key

/-- `clrdone`: `wr STATUS, 0x00000006`. -/
def pseudoClrdone : List HostInstr := [.wrImm .status 0x00000006]

end Sys2Proof.Machine
end

