-- ==== Sys2Proof/Machine/Turns.lean ====
section
/-! DEFINITION. The step of each agent (00_scope.md R12) and the choice of the next turn. -/

namespace Sys2Proof.Machine

/-- ENGINE's step while ENG = PEND: decode PCMD, then run the command, or complete with IllegalCommand
(60_exceptions.md R177, 30_encoding.md R89). -/
def runCommand (s : State) : Result :=
  match decode s.pcmd with
  | .ok i => exec i s
  | .error e => .next (rejectIllegal e s)

/-- ENGINE's step: it has one while ENG = PEND and none otherwise (70_reset_and_hazards.md R210; log 2). -/
def engineStep (s : State) : Result :=
  match s.eng with
  | .pend => runCommand s
  | .idle => .next s
  | .wait => .next s

/-- One turn. -/
def runTurn (t : Turn) (s : State) : Result :=
  match t with
  | .host => hostStep s
  | .bus a => .next (busAccess a s)
  | .engine => engineStep s
  | .hmacu ok => .next (hmacuStep ok s)
  | .reset => .next (resetBlock s)

/-- The next turn: the schedule's first, or past its end a free one (R12; log 1). -/
def nextTurn (s : State) : Turn :=
  match s.sched with
  | t :: _ => t
  | [] => Config.freeTurn s.draws

/-- The state with its next turn taken off the schedule, or counted as drawn. -/
def takeTurn (s : State) : State :=
  match s.sched with
  | _ :: ts => { s with sched := ts }
  | [] => { s with draws := s.draws + 1 }

/-- The state in which the command word `w` has been accepted and ENGINE has the next turn (log 11). -/
def loadCommand (w : Word) (s : State) : State := { accept w s with sched := .engine :: s.sched }

end Sys2Proof.Machine
end

