-- ==== Sys2Proof/Machine/Step.lean ====
section
/-! DEFINITION. One step of the machine: the next turn runs (00_scope.md R12). -/

namespace Sys2Proof.Machine

/-- One step: the turn that is next, in the state from which it has been taken. -/
def step (s : State) : Host.Outcome State Fault Refusal := runTurn (nextTurn s) (takeTurn s)

/-- The state in which the next step runs the command word `w` of `nbits` bits: accepted into PCMD, with ENGINE's turn
next (log 11). -/
def State.withFetchWord (s : State) (nbits w : Nat) : State := loadCommand (tableWord nbits w) s

end Sys2Proof.Machine
end

