-- ==== Sys2Proof/Safety.lean ====
section
/-! DEFINITION. What holds in every state a run reaches: the invariants of 10_state.md R49 and the facts of R33, R45 to
R47 and 41_hotp_core.md R130, R131 that tie the waiting command to its request. -/

namespace Sys2Proof.Machine

/-- PCMD holds a HOTP or TOTP with a supported DigitCount (R44, R135, R140). -/
def waitingCommand (w : Word) : Bool :=
  match decode w with
  | .ok (.hotp d _) => validDigits d
  | .ok (.totp d _) => validDigits d
  | .ok (.nop _) => false
  | .ok (.derive _) => false
  | .ok (.trunc _) => false
  | .ok (.reduce _ _) => false
  | .ok (.format _ _) => false
  | .ok (.dtf _ _) => false
  | .ok (.kopen _) => false
  | .ok (.kpush _ _) => false
  | .ok (.kclose _) => false
  | .ok (.zall _) => false
  | .error _ => false

/-- CODE as R42 states it for CODELEN = n: n ASCII digits, then 0x00. -/
def CodeShape (cs : Vector Byte 12) (n : Nat) : Prop :=
  ∀ i : Fin 12, if i.val < n then 0x30 ≤ (cs[i.val]).toNat ∧ (cs[i.val]).toNat ≤ 0x39 else cs[i.val] = 0

/-- The invariants of R49, (a) to (h), and those of R33, R45, R46, R47, R130 and R172. -/
structure Inv (s : State) : Prop where
  /-- R49 (a). -/
  closed_scope_holds_no_key : s.scope = false → s.keylen = 0 ∧ s.keybuf = Vector.replicate Config.keyMax 0
  /-- R49 (b). -/
  zero_past_keylen : ∀ i : Fin Config.keyMax, s.keylen.toNat ≤ i.val → s.keybuf[i.val] = 0
  /-- R33: KEYLEN is at most KEY_MAX. -/
  keylen_le : s.keylen.toNat ≤ Config.keyMax
  /-- R49 (c). -/
  busy_iff : s.busy = true ↔ s.eng ≠ .idle
  /-- R49 (d). -/
  req_iff : s.req.isSome = true ↔ s.eng = .wait
  /-- R49 (e). -/
  bin_lt : s.bin.toNat < 2 ^ 31
  /-- R49 (e). -/
  num_lt : s.num.toNat < 2 ^ 31
  /-- R49 (f): CODELEN. -/
  codelen_mem : s.codelen.toNat = 0 ∨ s.codelen.toNat ∈ digitSet
  /-- R49 (f): CODE. -/
  code_shape : CodeShape s.code s.codelen.toNat
  /-- R49 (g). -/
  info_of_no_error : s.err = 0 → s.info = 0
  /-- R172: only the pairs of its table are produced. -/
  error_pair : s.err = 0 ∨ ∃ e ∈ allCmdErrors, s.err = e.errCode ∧ s.info = e.infoCode
  /-- R49 (h), and CLATCH is 0 until the request is issued (R46). -/
  clatch_zero : s.eng ≠ .wait → s.clatch = 0
  /-- R45: PCMD holds a word only from accept to completion. -/
  pcmd_idle : s.eng = .idle → s.pcmd = 0
  /-- R27, R30, R177: while a command runs, DONE, ERR and INFO stay as accept cleared them. -/
  clear_while_busy : s.busy = true → s.done = false ∧ s.err = 0 ∧ s.info = 0
  /-- R44: only a HOTP or TOTP waits. -/
  waiting : s.eng = .wait → waitingCommand s.pcmd = true
  /-- R46, R131: the request is the key held and the counter latched, and the key is not empty (R130). -/
  request : ∀ r, s.req = some r → r.key = s.keyBytes ∧ r.msg = be8 s.clatch ∧ s.keylen ≠ 0

end Sys2Proof.Machine
end

