-- ==== Sys2Proof/Certificates/Slice0/Obligations.lean ====
section
/-! DEFINITION. The statements for the provers. Each says which rule of spec/ it formalises. The values are written out
here from the rules, not by the model's own operations, wherever that can be. -/

namespace Sys2Proof.Machine.Spec

/-! ## Values the statements are written with -/

/-- Twenty, twelve and KEY_MAX zero bytes. -/
def zeros (n : Nat) : Vector Byte n := Vector.replicate n 0

/-- The state after the completion procedure `finish(err, info)` (R176), field by field: `hmac` for a command decoded as
HOTP or TOTP, `z` for PCMD[12]. Every field not named keeps its value. -/
def ended (hmac z : Bool) (err : BitVec 4) (info : BitVec 8) (s : State) : State :=
  { s with
    err := err, info := info, busy := false, done := true, eng := .idle, pcmd := 0, clatch := 0,
    digest := if hmac then zeros 20 else s.digest,
    req := if hmac then none else s.req,
    keybuf := if z then zeros 64 else s.keybuf,
    keylen := if z then 0 else s.keylen,
    scope := if z then false else s.scope }

/-- The state with no code: what `invalidate_code()` leaves (R119). -/
def noCode (s : State) : State := { s with code := zeros 12, codelen := 0 }

/-- Byte `i` of a byte string of at least `i + 1` bytes, as a number (R9). -/
def byteNat {n : Nat} (b : Vector Byte n) (i : Nat) : Nat := (b.toList.getD i 0).toNat

/-- `DT(dg)` in integers (R112): offset, big-endian read of four bytes, bit 31 cleared. -/
def truncated (dg : Vector Byte 20) : Nat :=
  let off := byteNat dg 19 % 16
  (byteNat dg off * 2 ^ 24 + byteNat dg (off + 1) * 2 ^ 16 + byteNat dg (off + 2) * 2 ^ 8 + byteNat dg (off + 3)) % 2 ^ 31

/-- The twelve code bytes for `DEC(n, k)` (R116, R119): byte `i` is `0x30 + ((n div 10^(k-1-i)) mod 10)` for i < k, then 0. -/
def codeOf (n k : Nat) : Vector Byte 12 :=
  Vector.ofFn fun i => if i.val < k then BitVec.ofNat 8 (0x30 + n / 10 ^ (k - 1 - i.val) % 10) else 0

/-- The message for a counter: `BE8(c)`, byte j the bits [63-8j : 56-8j] (R9). -/
def message (c : DWord) : Vector Byte 8 := Vector.ofFn fun j => BitVec.ofNat 8 (c.toNat / 2 ^ (56 - 8 * j.val))

/-- The key a request carries: the first KEYLEN bytes of KEYBUF (R131). -/
def keyHeld (s : State) : List Byte := s.keybuf.toList.take s.keylen.toNat

/-- BIN, NUM, CODE and CODELEN for a digest and a DigitCount (R118, R136). -/
def withCode (dg : Vector Byte 20) (d : Nat) (s : State) : State :=
  { s with
    bin := BitVec.ofNat 32 (truncated dg), num := BitVec.ofNat 32 (truncated dg % 10 ^ d),
    code := codeOf (truncated dg % 10 ^ d) d, codelen := BitVec.ofNat 4 d }

/-- `DIGIT_SET` with DIGIT_EXT = 0 (R6, R110). -/
def Supported (d : Nat) : Prop := d = 6 ∨ d = 7 ∨ d = 8

/-- The state once the first turn of a schedule has been taken. -/
def after (rest : List Turn) (s : State) : State := { s with sched := rest }

/-- Every word with this opcode and a non-zero reserved or unused operand field is illegal with RESERVED_FIELD (R86, R88, R89). -/
def ReservedFieldsIllegal (op : BitVec 8) (hasDig hasKb : Bool) : Prop :=
  ∀ w : Word, w.extractLsb' 0 8 = op →
    (w.extractLsb' 13 3 ≠ 0 ∨ w.extractLsb' 24 8 ≠ 0 ∨ (hasDig = false ∧ w.extractLsb' 8 4 ≠ 0) ∨
      (hasKb = false ∧ w.extractLsb' 16 8 ≠ 0)) →
    decode w = .error .reservedField

/-- What a host read of a register returns (R21, R63, R67), from the fields of the state. -/
def windowValue (r : Reg) (s : State) : Nat :=
  match r with
  | .id => 0x48445445
  | .cfg => 0x01140040
  | .ctrl => s.irqEn.toNat
  | .status => s.busy.toNat + 2 * s.done.toNat + 4 * s.ovr.toNat + 8 * s.scope.toNat + 2 ^ 8 * s.err.toNat + 2 ^ 16 * s.info.toNat
  | .cmd => 0
  | .keylen => s.keylen.toNat
  | .codelen => s.codelen.toNat
  | .tsLo => s.ts.toNat % 2 ^ 32
  | .tsHi => s.ts.toNat / 2 ^ 32
  | .t0Lo => s.t0.toNat % 2 ^ 32
  | .t0Hi => s.t0.toNat / 2 ^ 32
  | .stepLo => s.stepSize.toNat % 2 ^ 32
  | .stepHi => s.stepSize.toNat / 2 ^ 32
  | .ctrLo => s.ctr.toNat % 2 ^ 32
  | .ctrHi => s.ctr.toNat / 2 ^ 32
  | .digest0 => 0
  | .digest1 => 0
  | .digest2 => 0
  | .digest3 => 0
  | .digest4 => 0
  | .bin => s.bin.toNat
  | .num => s.num.toNat
  | .code0 => byteNat s.code 0 + 2 ^ 8 * byteNat s.code 1 + 2 ^ 16 * byteNat s.code 2 + 2 ^ 24 * byteNat s.code 3
  | .code1 => byteNat s.code 4 + 2 ^ 8 * byteNat s.code 5 + 2 ^ 16 * byteNat s.code 6 + 2 ^ 24 * byteNat s.code 7
  | .code2 => byteNat s.code 8 + 2 ^ 8 * byteNat s.code 9 + 2 ^ 16 * byteNat s.code 10 + 2 ^ 24 * byteNat s.code 11

/-- A 64-bit value with its low half replaced. -/
def lowReplaced (v : DWord) (w : Word) : DWord := BitVec.ofNat 64 (v.toNat / 2 ^ 32 * 2 ^ 32 + w.toNat)

/-- A 64-bit value with its high half replaced. -/
def highReplaced (v : DWord) (w : Word) : DWord := BitVec.ofNat 64 (w.toNat * 2 ^ 32 + v.toNat % 2 ^ 32)

/-- DIGEST with bytes 4k to 4k+3 taken from a word in little-endian order (R39). -/
def digestWritten (dg : Vector Byte 20) (k : Nat) (v : Word) : Vector Byte 20 :=
  Vector.ofFn fun i =>
    if 4 * k ≤ i.val ∧ i.val < 4 * k + 4 then BitVec.ofNat 8 (v.toNat / 2 ^ (8 * (i.val - 4 * k))) else dg[i.val]

/-- What a host write of `v` to a register leaves (R64), in R64's order of cases. -/
def windowWritten (r : Reg) (v : Word) (s : State) : State :=
  match r, s.busy with
  | .ctrl, _ => { s with irqEn := v.getLsbD 0 }
  | .status, _ =>
    { s with done := if v.getLsbD 1 then false else s.done, ovr := if v.getLsbD 2 then false else s.ovr }
  | _, true => { s with ovr := true }
  | .cmd, false => { s with pcmd := v, eng := .pend, busy := true, done := false, err := 0, info := 0 }
  | .tsLo, false => { s with ts := lowReplaced s.ts v }
  | .tsHi, false => { s with ts := highReplaced s.ts v }
  | .t0Lo, false => { s with t0 := lowReplaced s.t0 v }
  | .t0Hi, false => { s with t0 := highReplaced s.t0 v }
  | .stepLo, false => { s with stepSize := lowReplaced s.stepSize v }
  | .stepHi, false => { s with stepSize := highReplaced s.stepSize v }
  | .ctrLo, false => { s with ctr := lowReplaced s.ctr v }
  | .ctrHi, false => { s with ctr := highReplaced s.ctr v }
  | .digest0, false => { s with digest := digestWritten s.digest 0 v }
  | .digest1, false => { s with digest := digestWritten s.digest 1 v }
  | .digest2, false => { s with digest := digestWritten s.digest 2 v }
  | .digest3, false => { s with digest := digestWritten s.digest 3 v }
  | .digest4, false => { s with digest := digestWritten s.digest 4 v }
  | .id, false => s
  | .cfg, false => s
  | .keylen, false => s
  | .codelen, false => s
  | .bin, false => s
  | .num, false => s
  | .code0, false => s
  | .code1, false => s
  | .code2, false => s

/-- The offsets R21 lists, with the register at each. -/
def offsetTable : List (Nat × Reg) :=
  [(0x00, .id), (0x04, .cfg), (0x08, .ctrl), (0x0C, .status), (0x10, .cmd), (0x14, .keylen), (0x18, .codelen)] ++
  [(0x20, .tsLo), (0x24, .tsHi), (0x28, .t0Lo), (0x2C, .t0Hi), (0x30, .stepLo), (0x34, .stepHi), (0x38, .ctrLo),
   (0x3C, .ctrHi)] ++
  [(0x40, .digest0), (0x44, .digest1), (0x48, .digest2), (0x4C, .digest3), (0x50, .digest4), (0x60, .bin),
   (0x64, .num), (0x70, .code0), (0x74, .code1), (0x78, .code2)]

/-- The twelve opcodes of R87. -/
def opcodes : List (BitVec 8) :=
  [0x00, 0x01, 0x10, 0x11, 0x12, 0x13, 0x20, 0x21, 0x30, 0x31, 0x32, 0x3F]

/-- The command named by an opcode of R87, with its operand fields. -/
def commandNamed (op : BitVec 8) (d : Nat) (z : Bool) (kb : Byte) : Instr :=
  match op.toNat with
  | 0x01 => .derive z
  | 0x10 => .trunc z
  | 0x11 => .reduce d z
  | 0x12 => .format d z
  | 0x13 => .dtf d z
  | 0x20 => .hotp d z
  | 0x21 => .totp d z
  | 0x30 => .kopen z
  | 0x31 => .kpush kb z
  | 0x32 => .kclose z
  | 0x3F => .zall z
  | _ => .nop z

/-- Two states that differ at most in secret bytes: KEYBUF's bytes and the request's key copy. Every other field,
KEYLEN and the request's message among them, is the same. -/
def EqualButSecret (s t : State) : Prop :=
  t = { s with keybuf := t.keybuf, req := t.req } ∧ s.req.map Request.msg = t.req.map Request.msg

/-- Two outcomes of a step that differ at most in secret bytes, or stop for the same reason. -/
def OutcomesEqualButSecret : Result → Result → Prop
  | .next s, .next t => EqualButSecret s t
  | .fault a, .fault b => a = b
  | .refused a, .refused b => a = b
  | .next _, .fault _ => False
  | .next _, .refused _ => False
  | .fault _, .next _ => False
  | .fault _, .refused _ => False
  | .refused _, .next _ => False
  | .refused _, .fault _ => False

/-- `k` steps, each answering a next state, lead from `s` to `t`. -/
def StepsTo : Nat → State → State → Prop
  | 0, s, t => s = t
  | k + 1, s, t => ∃ u, step s = .next u ∧ StepsTo k u t

/-- The number a decimal code spells, most significant character first. -/
def spelled (cs : List Byte) : Nat := cs.foldl (fun n c => 10 * n + (c.toNat - 0x30)) 0

end Sys2Proof.Machine.Spec

open Sys2Proof Sys2Proof.Machine Sys2Proof.Machine.Spec

/-! ## Reset -/

/-- R50: every piece of the block's state at reset, and what the host then reads. -/
def Obligations.ResetValuesAreTheSpecs : Prop :=
  let s := State.reset
  (s.irqEn = false ∧ s.busy = false ∧ s.done = false ∧ s.ovr = false ∧ s.scope = false ∧ s.err = 0 ∧ s.info = 0) ∧
  (s.keylen = 0 ∧ s.codelen = 0 ∧ s.ts = 0 ∧ s.t0 = 0 ∧ s.stepSize = 0 ∧ s.ctr = 0 ∧ s.bin = 0 ∧ s.num = 0) ∧
  (s.digest = zeros 20 ∧ s.code = zeros 12 ∧ s.keybuf = zeros 64) ∧
  (s.eng = .idle ∧ s.pcmd = 0 ∧ s.clatch = 0 ∧ s.req = none ∧ s.irq = false) ∧
  readReg .id s = 0x48445445 ∧ readReg .cfg s = 0x01140040 ∧
  ∀ r : Reg, r ≠ .id → r ≠ .cfg → readReg r s = 0

/-- R201, R203: the RESET event, in any state, with any command in progress, leaves every piece of the block's state at
its reset value and reports nothing. -/
def Obligations.ResetEventResetsTheBlock : Prop :=
  ∀ (s : State) (rest : List Turn), s.sched = .reset :: rest →
    ∃ t, step s = .next t ∧
      (t.irqEn = false ∧ t.busy = false ∧ t.done = false ∧ t.ovr = false ∧ t.scope = false ∧ t.err = 0 ∧ t.info = 0) ∧
      (t.keylen = 0 ∧ t.codelen = 0 ∧ t.ts = 0 ∧ t.t0 = 0 ∧ t.stepSize = 0 ∧ t.ctr = 0 ∧ t.bin = 0 ∧ t.num = 0) ∧
      (t.digest = zeros 20 ∧ t.code = zeros 12 ∧ t.keybuf = zeros 64) ∧
      t.eng = .idle ∧ t.pcmd = 0 ∧ t.clatch = 0 ∧ t.req = none ∧ t.irq = false

/-- R133: while ENG is not WAIT, HMACU has no step: an answer changes no state. -/
def Obligations.AnswerOutsideWaitIsDropped : Prop :=
  ∀ (s : State) (ok : Bool) (rest : List Turn), s.sched = .hmacu ok :: rest → s.eng ≠ .wait →
    step s = .next (after rest s)

/-! ## The register window -/

/-- R22, R23: ID and CFG read as constants in every state, CFG's fields are R23's, and a write to either is ignored (while
BUSY = 1 it is reported in OVR, R28). -/
def Obligations.IdentityRegistersAreConstant : Prop :=
  (∀ s : State, readReg .id s = 0x48445445 ∧ readReg .cfg s = 0x01140040 ∧
    (readReg .cfg s).extractLsb' 0 8 = BitVec.ofNat 8 Config.keyMax ∧
    (readReg .cfg s).getLsbD 8 = Config.digitExt ∧
    (readReg .cfg s).extractLsb' 9 7 = 0#7 ∧
    (readReg .cfg s).extractLsb' 16 8 = 20#8 ∧ (readReg .cfg s).extractLsb' 24 8 = 1#8) ∧
  ∀ (s : State) (v : Word),
    writeReg .id v s = { s with ovr := s.ovr || s.busy } ∧ writeReg .cfg v s = { s with ovr := s.ovr || s.busy }

/-- R24: CTRL has IRQ_EN in bit 0 alone, it enables the interrupt output, and a write takes effect even while BUSY = 1 and
changes nothing else. -/
def Obligations.CtrlHoldsIrqEnableAlone : Prop :=
  (∀ (s : State) (v : Word), writeReg .ctrl v s = { s with irqEn := v.getLsbD 0 }) ∧
  (∀ (s : State) (j : Nat), (readReg .ctrl s).getLsbD j = (s.irqEn && decide (j = 0))) ∧
  (∀ s : State, s.irqEn = false → s.irq = false) ∧ (∀ s : State, s.irqEn = true → s.irq = s.done) ∧
  State.reset.irqEn = false

/-- R25: STATUS's layout bit by bit, its write-1-to-clear bits, even while BUSY, and no side effect of a read. -/
def Obligations.StatusLayoutAndClearing : Prop :=
  (∀ s : State,
    (readReg .status s).getLsbD 0 = s.busy ∧ (readReg .status s).getLsbD 1 = s.done ∧
    (readReg .status s).getLsbD 2 = s.ovr ∧ (readReg .status s).getLsbD 3 = s.scope ∧
    (readReg .status s).extractLsb' 4 4 = 0#4 ∧ (readReg .status s).extractLsb' 8 4 = s.err ∧
    (readReg .status s).extractLsb' 12 4 = 0#4 ∧ (readReg .status s).extractLsb' 16 8 = s.info ∧
    (readReg .status s).extractLsb' 24 8 = 0#8) ∧
  (∀ (s : State) (v : Word), writeReg .status v s =
    { s with done := if v.getLsbD 1 then false else s.done, ovr := if v.getLsbD 2 then false else s.ovr }) ∧
  (∀ (s : State) (rest : List Turn), s.sched = .bus (.read (Config.base + 0x0C) 4) :: rest →
    step s = .next { after rest s with bus := .data (readReg .status s) }) ∧
  readReg .status State.reset = 0

/-- R66, R21: of the offsets of the window, exactly the listed ones reach a register, each its own; the reserved and the
unaligned ones reach none. -/
def Obligations.RegisterMapIsTheTable : Prop :=
  (∀ p ∈ offsetTable, regAtOffset p.1 = some p.2 ∧ Reg.off p.2 = p.1) ∧
  (∀ off : Fin 0x100, (regAtOffset off.val).isSome = (offsetTable.map Prod.fst).contains off.val) ∧
  ∀ off ∈ [0x1C, 0x54, 0x58, 0x5C, 0x68, 0x6C], regAtOffset off = none

/-- R65: an access of another size, at an offset that is not a multiple of 4, or at a reserved offset is a bus error. For
another master it is an error response and no state of the block changes; as the HOST's own access it is the HOST's fault.
The model's, and no rule's: that an offset past the window is one of these too (log 6), and that another master's error is
recorded and the run goes on (log 7). -/
def Obligations.NonConformingAccessIsBusError : Prop :=
  ∀ (s : State) (off size : Nat), (size ≠ 4 ∨ off % 4 ≠ 0 ∨ off ∉ offsetTable.map Prod.fst) →
    (∀ rest, s.sched = .bus (.read (Config.base + off) size) :: rest →
      step s = .next { after rest s with bus := .error }) ∧
    (∀ rest v, s.sched = .bus (.write (Config.base + off) size v) :: rest →
      step s = .next { after rest s with bus := .error }) ∧
    (∀ rest x, s.sched = .host :: rest → s.host.prog[s.host.pc]? = some (.memRead x (Config.base + off) size) →
      step s = .fault (.busError (Config.base + off) size)) ∧
    (∀ rest v, s.sched = .host :: rest → s.host.prog[s.host.pc]? = some (.memWrite (Config.base + off) size v) →
      step s = .fault (.busError (Config.base + off) size))

/-- R63: an aligned 32-bit read of a mapped offset returns the register's value (0 for a write-only one) and has no side
effect on any state, whatever BUSY is. Any other read is a bus error and changes no state of the block; that this holds past the window too
is the model's (log 6), and so is that another master's error is recorded and the run goes on (log 7). -/
def Obligations.WindowReadReturnsTheRegister : Prop :=
  (∀ (s : State) (r : Reg) (off : Nat) (rest : List Turn), (off, r) ∈ offsetTable →
    s.sched = .bus (.read (Config.base + off) 4) :: rest →
    step s = .next { after rest s with bus := .data (BitVec.ofNat 32 (windowValue r s)) }) ∧
  ∀ (s : State) (off size : Nat) (rest : List Turn), (size ≠ 4 ∨ off % 4 ≠ 0 ∨ off ∉ offsetTable.map Prod.fst) →
    s.sched = .bus (.read (Config.base + off) size) :: rest → step s = .next { after rest s with bus := .error }

/-- R64: an aligned 32-bit write of a mapped offset does what R64's case for that register says, and nothing else. Any
other write is a bus error and changes no state of the block; that this holds past the window too is the model's (log 6),
and so is that another master's error is recorded and the run goes on (log 7). -/
def Obligations.WindowWriteDoesItsCase : Prop :=
  (∀ (s : State) (r : Reg) (off : Nat) (v : Word) (rest : List Turn), (off, r) ∈ offsetTable →
    s.sched = .bus (.write (Config.base + off) 4 v) :: rest →
    step s = .next { windowWritten r v (after rest s) with bus := .written }) ∧
  ∀ (s : State) (off size : Nat) (v : Word) (rest : List Turn),
    (size ≠ 4 ∨ off % 4 ≠ 0 ∨ off ∉ offsetTable.map Prod.fst) →
    s.sched = .bus (.write (Config.base + off) size v) :: rest → step s = .next { after rest s with bus := .error }

/-- R68: while BUSY = 1, a write to any register but CTRL and STATUS is ignored and sets OVR. -/
def Obligations.WriteWhileBusyIsIgnoredAndReported : Prop :=
  ∀ (s : State) (r : Reg) (off : Nat) (v : Word) (rest : List Turn), (off, r) ∈ offsetTable →
    r ≠ .ctrl → r ≠ .status → s.busy = true →
    s.sched = .bus (.write (Config.base + off) 4 v) :: rest →
    step s = .next { after rest s with ovr := true, bus := .written }

/-- R39: a write to DIGESTk sets bytes 4k to 4k+3 from the word's bytes in little-endian order and leaves the others; reads
of DIGEST return 0. -/
def Obligations.DigestWriteFollowsByteLanes : Prop :=
  ∀ (s : State) (v : Word) (k : Fin 5) (r : Reg), (0x40 + 4 * k.val, r) ∈ offsetTable → s.busy = false →
    (∀ j : Fin 4, byteNat (writeReg r v s).digest (4 * k.val + j.val) = v.toNat / 2 ^ (8 * j.val) % 2 ^ 8) ∧
    (∀ i, i < 4 * k.val ∨ 4 * k.val + 4 ≤ i → byteNat (writeReg r v s).digest i = byteNat s.digest i) ∧
    writeReg r v s = { s with digest := (writeReg r v s).digest } ∧
    readReg r s = 0

/-- R62 (b), R42: the byte lanes of CODE0 to CODE2 hold the characters in address order. -/
def Obligations.CodeWordLanesAreCharacters : Prop :=
  ∀ (s : State) (k : Fin 3) (j : Fin 4) (r : Reg), (0x70 + 4 * k.val, r) ∈ offsetTable →
    (readReg r s).toNat / 2 ^ (8 * j.val) % 2 ^ 8 = byteNat s.code (4 * k.val + j.val)

/-- R62 (a): writing a value's low word to R_LO and its high word to R_HI, in either order, makes the 64-bit register that
value, and the two reads give the words back. -/
def Obligations.TwoHalvesMakeTheRegister : Prop :=
  ∀ (s : State) (v : DWord) (r : Reg64), s.busy = false →
    (∀ t, t = writeReg r.hi (v.extractLsb' 32 32) (writeReg r.lo (v.extractLsb' 0 32) s) ∨
        t = writeReg r.lo (v.extractLsb' 0 32) (writeReg r.hi (v.extractLsb' 32 32) s) →
      (match r with | .ts => t.ts | .t0 => t.t0 | .step => t.stepSize | .ctr => t.ctr) = v ∧
      readReg r.lo t = v.extractLsb' 0 32 ∧ readReg r.hi t = v.extractLsb' 32 32)

/-- R67: the write-only registers read as 0, and the window tells nothing of the key bytes, the digest, the command word,
the latched counter or the request. -/
def Obligations.ReadsDoNotDependOnHiddenState : Prop :=
  (∀ s : State, ∀ r ∈ [Reg.cmd, .digest0, .digest1, .digest2, .digest3, .digest4], readReg r s = 0) ∧
  ∀ (s t : State) (r : Reg),
    t = { s with keybuf := t.keybuf, digest := t.digest, pcmd := t.pcmd, clatch := t.clatch, req := t.req } →
    readReg r s = readReg r t ∧ s.irq = t.irq

/-- R178: `irq` is IRQ_EN AND DONE; IRQ_EN = 0 masks it and keeps DONE; it follows a completion while IRQ_EN = 1. -/
def Obligations.IrqIsEnableAndDone : Prop :=
  (∀ s : State, s.irq = (s.irqEn && s.done)) ∧
  (∀ (s : State) (v : Word), v.getLsbD 0 = false →
    (writeReg .ctrl v s).irq = false ∧ (writeReg .ctrl v s).done = s.done) ∧
  ∀ (s : State) (hmac z : Bool) (e : BitVec 4) (i : BitVec 8), s.irqEn = true → (finish hmac z e i s).irq = true

/-- R179: `irq` is down after each of the four ways to clear it, and a read of STATUS leaves it. -/
def Obligations.IrqFallsWhenCleared : Prop :=
  (∀ (s : State) (v : Word), v.getLsbD 1 = true → (writeReg .status v s).irq = false) ∧
  (∀ (s : State) (w : Word), s.busy = false → (writeReg .cmd w s).irq = false) ∧
  (∀ s : State, (resetBlock s).irq = false) ∧
  (∀ (s : State) (v : Word), v.getLsbD 0 = false → (writeReg .ctrl v s).irq = false) ∧
  ∀ (s t : State) (rest : List Turn), s.sched = .bus (.read (Config.base + 0x0C) 4) :: rest → step s = .next t →
    t.irq = s.irq

/-- R94: `wr REG, v` is `MemWrite(BASE + off(REG), 4, v)` and `rd rX, REG` is a read of `MemRead(BASE + off(REG), 4)`. -/
def Obligations.NamedAccessIsWindowAccess : Prop :=
  ∀ (s : State) (r : Reg) (v : Word) (x : Fin 16),
    busAccess (.write (Config.base + r.off) 4 v) s = hostWrite r v s ∧
    busRead (Config.base + r.off) 4 s = .data (readReg r s) ∧
    hostMemWrite (Config.base + r.off) 4 v s = execHost (.wrImm r v) s ∧
    hostMemRead x (Config.base + r.off) 4 s = execHost (.rd x r) s

/-- R94: the HOST's turn runs the next instruction of its program; `wr` and `rd` access the register, the host's own
arithmetic and branches concern the host's registers alone. The place in the program is the model's (log 18). -/
def Obligations.HostInstructionsDoTheirForms : Prop :=
  (∀ (s : State) (i : HostInstr) (rest : List Turn), s.sched = .host :: rest → s.host.prog[s.host.pc]? = some i →
    step s = execHost i (after rest s)) ∧
  ∀ (s : State) (x y : Fin 16) (r : Reg) (v : Word) (n : Int) (l : Nat),
    let wrote := fun (w : Word) =>
      ({ s with host := { s.host with regs := s.host.regs.set x.val w, pc := s.host.pc + 1 } } : State)
    let went := fun (p : Nat) => ({ s with host := { s.host with pc := p } } : State)
    execHost (.wrImm r v) s =
      .next { writeReg r v s with bus := .written, host := { s.host with pc := s.host.pc + 1 } } ∧
    execHost (.wrReg r x) s =
      .next { writeReg r s.host.regs[x.val] s with bus := .written, host := { s.host with pc := s.host.pc + 1 } } ∧
    execHost (.rd x r) s = .next { wrote (readReg r s) with bus := .data (readReg r s) } ∧
    execHost (.li x v) s = .next (wrote v) ∧
    execHost (.andi x y v) s = .next (wrote (s.host.regs[y.val] &&& v)) ∧
    execHost (.addi x y n) s =
      .next (wrote (BitVec.ofNat 32 ((((s.host.regs[y.val]).toNat : Int) + n) % 2 ^ 32).toNat)) ∧
    execHost (.bnez x l) s = .next (went (if s.host.regs[x.val] = 0 then s.host.pc + 1 else l)) ∧
    execHost (.beqz x l) s = .next (went (if s.host.regs[x.val] = 0 then l else s.host.pc + 1))

/-! ## Decoding -/

/-- The example words of R93, written out there, decode to their commands. -/
def Obligations.ExampleWordsDecode : Prop :=
  decode 0x00000000 = .ok (.nop false) ∧ decode 0x00000001 = .ok (.derive false) ∧
  decode 0x00000010 = .ok (.trunc false) ∧ decode 0x00000611 = .ok (.reduce 6 false) ∧
  decode 0x00000812 = .ok (.format 8 false) ∧ decode 0x00000713 = .ok (.dtf 7 false) ∧
  decode 0x00000620 = .ok (.hotp 6 false) ∧ decode 0x00001620 = .ok (.hotp 6 true) ∧
  decode 0x00001821 = .ok (.totp 8 true) ∧ decode 0x00000030 = .ok (.kopen false) ∧
  decode 0x00470031 = .ok (.kpush 0x47 false) ∧ decode 0x00000032 = .ok (.kclose false) ∧
  decode 0x0000003F = .ok (.zall false)

/-- Decoding the word of any well-formed command gives the command back, every operand at every value. -/
def Obligations.DecodeOfEncodeIsIdentity : Prop :=
  ∀ i : Instr, i.wf = true → decode (encode i) = .ok i

/-- A word that decodes is the word of its command, which is well-formed: no two words are one command. -/
def Obligations.EncodeOfDecodeIsIdentity : Prop :=
  ∀ (w : Word) (i : Instr), decode w = .ok i → encode i = w ∧ i.wf = true

/-- R88: "A word `w` selects an opcode exactly when `w & mask == match`", for the twelve rows of R88's table. -/
def Obligations.DecodeAgreesWithMatchAndMask : Prop :=
  (∀ (w : Word) (i : Instr), decode w = .ok i → i.row ∈ opcodeTable ∧ w &&& i.row.mask = i.row.mtch) ∧
  (∀ (w : Word) (r : OpRow), r ∈ opcodeTable → w &&& r.mask = r.mtch → ∃ i, decode w = .ok i ∧ i.row = r) ∧
  opcodeTable.length = 12 ∧
  opcodeTable.map OpRow.mtch =
    [0x00000000, 0x00000001, 0x00000010, 0x00000011, 0x00000012, 0x00000013, 0x00000020, 0x00000021, 0x00000030,
     0x00000031, 0x00000032, 0x0000003F] ∧
  opcodeTable.map OpRow.mask =
    [0xFFFFEFFF, 0xFFFFEFFF, 0xFFFFEFFF, 0xFFFFE0FF, 0xFFFFE0FF, 0xFFFFE0FF, 0xFFFFE0FF, 0xFFFFE0FF, 0xFFFFEFFF,
     0xFF00EFFF, 0xFFFFEFFF, 0xFFFFEFFF]

/-- R90: a word raises RESERVED_OPCODE exactly when its OP is none of the twelve, which are 244 values of 256, and no word
but NOP's is a no-op. -/
def Obligations.ReservedOpcodesAreIllegal : Prop :=
  (∀ w : Word, decode w = .error .reservedOpcode ↔ w.extractLsb' 0 8 ∉ opcodes) ∧
  ((List.range 256).filter fun n => BitVec.ofNat 8 n ∉ opcodes).length = 244 ∧
  ∀ (w : Word) (z : Bool), decode w = .ok (.nop z) → w = 0x00000000 ∨ w = 0x00001000

/-- R89: the decode procedure in its order, and what an illegal command does: nothing but STATUS, PCMD, ENG (and CLATCH,
which is already 0) and, when Z = 1, the key scope. -/
def Obligations.DecodeProcedureAndIllegalCompletion : Prop :=
  (∀ w : Word,
    let op := w.extractLsb' 0 8
    decode w =
      if op ∉ opcodes then .error .reservedOpcode
      else if w.extractLsb' 13 3 ≠ 0 ∨ w.extractLsb' 24 8 ≠ 0 then .error .reservedField
      else if op ∉ [0x11#8, 0x12#8, 0x13#8, 0x20#8, 0x21#8] ∧ w.extractLsb' 8 4 ≠ 0 then .error .reservedField
      else if op ≠ 0x31 ∧ w.extractLsb' 16 8 ≠ 0 then .error .reservedField
      else .ok (commandNamed op (w.extractLsb' 8 4).toNat (w.getLsbD 12) (w.extractLsb' 16 8))) ∧
  ∀ (s : State) (e : Illegal) (rest : List Turn), s.sched = .engine :: rest → s.eng = .pend →
    decode s.pcmd = .error e →
    step s = .next (ended false (s.pcmd.getLsbD 12) 3 (match e with | .reservedOpcode => 1 | .reservedField => 2)
      (after rest s))

/-! ## Stepping -/

/-- R177: a write of a word to CMD while BUSY = 0 accepts it, and while ENG = PEND the ENGINE's turn decodes PCMD and runs
the decoded command, or completes with IllegalCommand. -/
def Obligations.AcceptedCommandIsRunByTheEngine : Prop :=
  (∀ (s : State) (w : Word) (rest : List Turn), s.busy = false →
    s.sched = .bus (.write (Config.base + 0x10) 4 w) :: rest →
    step s = .next { after rest s with
      pcmd := w, eng := .pend, busy := true, done := false, err := 0, info := 0, bus := .written }) ∧
  (∀ (s : State) (i : Instr) (rest : List Turn), s.sched = .engine :: rest → s.eng = .pend → decode s.pcmd = .ok i →
    step s = exec i (after rest s)) ∧
  ∀ (s : State) (e : Illegal) (rest : List Turn), s.sched = .engine :: rest → s.eng = .pend →
    decode s.pcmd = .error e → ∃ t, step s = .next t ∧ t.err = 3 ∧ t.done = true ∧ t.eng = .idle

/-- R132: in WAIT the answer of HMACU is HMAC_FN of the request, or FAIL, and it runs the second phase of the command in
PCMD. -/
def Obligations.ResponseRunsTheWaitingCommand : Prop :=
  ∀ (s : State) (ok : Bool) (r : Request) (d : Nat) (z : Bool) (rest : List Turn),
    s.sched = .hmacu ok :: rest → s.eng = .wait → s.req = some r →
    (decode s.pcmd = .ok (.hotp d z) →
      step s = .next (hotpRespond d z (if ok then .ok (Config.hmacFn r.key r.msg) else .fail) (after rest s))) ∧
    (decode s.pcmd = .ok (.totp d z) →
      step s = .next (totpRespond d z (if ok then .ok (Config.hmacFn r.key r.msg) else .fail) (after rest s)))

/-- R210: the ENGINE has a step only in PEND: in IDLE and in WAIT its turn changes no state. The turn itself is the
model's (log 2). -/
def Obligations.EngineRunsOnlyWhenPending : Prop :=
  ∀ (s : State) (rest : List Turn), s.sched = .engine :: rest → s.eng ≠ .pend → step s = .next (after rest s)

/-- R176: the completion procedure, field by field, and the two ways it is called; a command's Z is PCMD[12], which is
honoured for an illegal word too, and an illegal word is never decoded as HOTP or TOTP. -/
def Obligations.CompletionProcedure : Prop :=
  (∀ (hmac z : Bool) (s : State),
    (∀ (err : BitVec 4) (info : BitVec 8), finish hmac z err info s = ended hmac z err info s) ∧
    complete hmac z s = ended hmac z 0 0 s ∧
    ∀ e : CmdError, raise hmac z e s = ended hmac z e.errCode e.infoCode s) ∧
  (∀ (w : Word) (i : Instr), decode w = .ok i → i.z = w.getLsbD 12) ∧
  ∀ (s : State) (e : Illegal), rejectIllegal e s =
    ended false (s.pcmd.getLsbD 12) 3 (match e with | .reservedOpcode => 1 | .reservedField => 2) s

/-- R171, R172: the codes of every error, and that no two sub-causes share a pair. -/
def Obligations.ErrorCodesAreTheTables : Prop :=
  allCmdErrors.map (fun e => (e.errCode.toNat, e.infoCode.toNat)) =
    [(1, 1), (1, 2), (1, 3), (1, 4), (2, 1), (2, 2), (3, 1), (3, 2), (4, 1), (4, 2)] ∧
  (∀ e : CmdError, e ∈ allCmdErrors) ∧
  ∀ e f : CmdError, e.errCode = f.errCode → e.infoCode = f.infoCode → e = f

/-! ## The commands -/

/-- R156: NOP. -/
def Obligations.NopOnlyCompletes : Prop :=
  (∀ (z : Bool) (s : State), exec (.nop z) s = .next (ended false z 0 0 s)) ∧
  decode 0x00000000 = .ok (.nop false) ∧ decode 0x00001000 = .ok (.nop true) ∧
  ReservedFieldsIllegal 0x00 false false

/-- R101, R100: DERIVE. STEP_ZERO before TS_BEFORE_T0; otherwise CTR is the floor of (TS - T0) / STEP. -/
def Obligations.DeriveDividesTheDifference : Prop :=
  (∀ (z : Bool) (s : State), exec (.derive z) s = .next (
    if s.stepSize = 0 then ended false z 1 1 s
    else if s.ts.toNat < s.t0.toNat then ended false z 1 2 s
    else ended false z 0 0
      { s with ctr := BitVec.ofNat 64 ((s.ts.toNat - s.t0.toNat) / s.stepSize.toNat) })) ∧
  decode 0x00000001 = .ok (.derive false) ∧ decode 0x00001001 = .ok (.derive true) ∧
  ReservedFieldsIllegal 0x01 false false

/-- R113, R112: TRUNC. -/
def Obligations.TruncExtractsBinaryCode : Prop :=
  (∀ (z : Bool) (s : State), exec (.trunc z) s =
    .next (ended false z 0 0 { s with bin := BitVec.ofNat 32 (truncated s.digest) })) ∧
  decode 0x00000010 = .ok (.trunc false) ∧ decode 0x00001010 = .ok (.trunc true) ∧
  ReservedFieldsIllegal 0x10 false false

/-- R115: REDUCE. -/
def Obligations.ReduceTakesTheRemainder : Prop :=
  (∀ (d : Nat) (z : Bool) (s : State),
    (Supported d → exec (.reduce d z) s =
      .next (ended false z 0 0 { s with num := BitVec.ofNat 32 (s.bin.toNat % 10 ^ d) })) ∧
    (¬ Supported d → exec (.reduce d z) s = .next (ended false z 1 3 s))) ∧
  decode 0x00000611 = .ok (.reduce 6 false) ∧ decode 0x00001611 = .ok (.reduce 6 true) ∧
  ReservedFieldsIllegal 0x11 true false

/-- R117, R116, R119: FORMAT. -/
def Obligations.FormatWritesDecimalDigits : Prop :=
  (∀ (d : Nat) (z : Bool) (s : State),
    (Supported d → s.num.toNat < 10 ^ d → exec (.format d z) s =
      .next (ended false z 0 0 { s with code := codeOf s.num.toNat d, codelen := BitVec.ofNat 4 d })) ∧
    (Supported d → 10 ^ d ≤ s.num.toNat → exec (.format d z) s = .next (ended false z 1 4 (noCode s))) ∧
    (¬ Supported d → exec (.format d z) s = .next (ended false z 1 3 (noCode s)))) ∧
  decode 0x00000612 = .ok (.format 6 false) ∧ decode 0x00001612 = .ok (.format 6 true) ∧
  ReservedFieldsIllegal 0x12 true false

/-- R118: DTF, on the host's DIGEST, which keeps its bytes. -/
def Obligations.DtfMakesTheCodeOfTheDigest : Prop :=
  (∀ (d : Nat) (z : Bool) (s : State),
    (Supported d → exec (.dtf d z) s = .next (ended false z 0 0 (withCode s.digest d s))) ∧
    (¬ Supported d → exec (.dtf d z) s = .next (ended false z 1 3 (noCode s)))) ∧
  decode 0x00000613 = .ok (.dtf 6 false) ∧ decode 0x00001613 = .ok (.dtf 6 true) ∧
  ReservedFieldsIllegal 0x13 true false

/-- R135, R131: HOTP, first phase: the request for CTR, or DIGITS_UNSUPPORTED, then KEY_EMPTY, with no request. -/
def Obligations.HotpIssuesItsRequest : Prop :=
  (∀ (d : Nat) (z : Bool) (s : State),
    (Supported d → s.keylen ≠ 0 → exec (.hotp d z) s =
      .next { s with clatch := s.ctr, req := some { key := keyHeld s, msg := message s.ctr }, eng := .wait }) ∧
    (Supported d → s.keylen = 0 → exec (.hotp d z) s = .next (ended true z 2 1 (noCode s))) ∧
    (¬ Supported d → exec (.hotp d z) s = .next (ended true z 1 3 (noCode s)))) ∧
  decode 0x00000620 = .ok (.hotp 6 false) ∧ decode 0x00001620 = .ok (.hotp 6 true) ∧
  ReservedFieldsIllegal 0x20 true false

/-- R136: HOTP, second phase: the code of the response's digest, or HMAC_FAIL; CTR is not written. -/
def Obligations.HotpConsumesTheResponse : Prop :=
  ∀ (s : State) (r : Request) (d : Nat) (z : Bool) (rest : List Turn),
    s.eng = .wait → s.req = some r → decode s.pcmd = .ok (.hotp d z) →
    (s.sched = .hmacu true :: rest →
      step s = .next (ended true z 0 0 (withCode (Config.hmacFn r.key r.msg) d (after rest s)))) ∧
    (s.sched = .hmacu false :: rest → step s = .next (ended true z 2 2 (noCode (after rest s))))

/-- R140: TOTP, first phase: the four errors in order, or the request for the derived counter, CTR not written. -/
def Obligations.TotpIssuesItsRequest : Prop :=
  (∀ (d : Nat) (z : Bool) (s : State),
    (¬ Supported d → exec (.totp d z) s = .next (ended true z 1 3 (noCode s))) ∧
    (Supported d → exec (.totp d z) s = .next (
      if s.stepSize = 0 then ended true z 1 1 (noCode s)
      else if s.ts.toNat < s.t0.toNat then ended true z 1 2 (noCode s)
      else if s.keylen = 0 then ended true z 2 1 (noCode s)
      else
        let c := BitVec.ofNat 64 ((s.ts.toNat - s.t0.toNat) / s.stepSize.toNat)
        { s with clatch := c, req := some { key := keyHeld s, msg := message c }, eng := .wait }))) ∧
  decode 0x00000821 = .ok (.totp 8 false) ∧ decode 0x00001821 = .ok (.totp 8 true) ∧
  ReservedFieldsIllegal 0x21 true false

/-- R141: TOTP, second phase: as HOTP's, and CTR is committed only on success. -/
def Obligations.TotpConsumesTheResponse : Prop :=
  ∀ (s : State) (r : Request) (d : Nat) (z : Bool) (rest : List Turn),
    s.eng = .wait → s.req = some r → decode s.pcmd = .ok (.totp d z) →
    (s.sched = .hmacu true :: rest →
      step s = .next (ended true z 0 0
        { withCode (Config.hmacFn r.key r.msg) d (after rest s) with ctr := s.clatch })) ∧
    (s.sched = .hmacu false :: rest → step s = .next (ended true z 2 2 (noCode (after rest s))))

/-- R152: KOPEN. -/
def Obligations.KopenOpensAZeroedScope : Prop :=
  (∀ (z : Bool) (s : State), exec (.kopen z) s =
    .next (ended false z 0 0 { s with keybuf := zeros 64, keylen := 0, scope := true })) ∧
  decode 0x00000030 = .ok (.kopen false) ∧ decode 0x00001030 = .ok (.kopen true) ∧
  ReservedFieldsIllegal 0x30 false false

/-- R153: KPUSH. SCOPE_CLOSED first, then KEY_FULL, with nothing stored; otherwise KEYBUF[KEYLEN] takes the byte, the other
bytes stay, and KEYLEN grows by one. -/
def Obligations.KpushAppendsTheByte : Prop :=
  (∀ (kb : Byte) (z : Bool) (s : State),
    (s.scope = false → exec (.kpush kb z) s = .next (ended false z 4 1 s)) ∧
    (s.scope = true → s.keylen.toNat = 64 → exec (.kpush kb z) s = .next (ended false z 4 2 s)) ∧
    (s.scope = true → s.keylen.toNat < 64 → exec (.kpush kb z) s =
      .next (ended false z 0 0 { s with
        keybuf := Vector.ofFn fun i => if i.val = s.keylen.toNat then kb else s.keybuf[i.val],
        keylen := BitVec.ofNat 8 (s.keylen.toNat + 1) }))) ∧
  decode 0x00470031 = .ok (.kpush 0x47 false) ∧ decode 0x00471031 = .ok (.kpush 0x47 true) ∧
  ReservedFieldsIllegal 0x31 false true

/-- R154, R151: KCLOSE. -/
def Obligations.KcloseZeroizesTheScope : Prop :=
  (∀ (z : Bool) (s : State), exec (.kclose z) s =
    .next (ended false z 0 0 { s with keybuf := zeros 64, keylen := 0, scope := false })) ∧
  decode 0x00000032 = .ok (.kclose false) ∧ decode 0x00001032 = .ok (.kclose true) ∧
  ReservedFieldsIllegal 0x32 false false

/-- R155: ZALL: every data register and the scope; CTRL and OVR stay. -/
def Obligations.ZallZeroizesEveryDataRegister : Prop :=
  (∀ (z : Bool) (s : State), exec (.zall z) s =
    .next (ended false z 0 0 { s with
      keybuf := zeros 64, keylen := 0, scope := false, digest := zeros 20, bin := 0, num := 0,
      code := zeros 12, codelen := 0, ts := 0, t0 := 0, stepSize := 0, ctr := 0 })) ∧
  decode 0x0000003F = .ok (.zall false) ∧ decode 0x0000103F = .ok (.zall true) ∧
  ReservedFieldsIllegal 0x3F false false

/-! ## Laws of the functions -/

/-- R103: for a fixed STEP that is not 0 and a fixed T0, the counter does not fall as TS grows. -/
def Obligations.CounterIsMonotonic : Prop :=
  ∀ (ts ts' t0 step : DWord), step ≠ 0 → t0.toNat ≤ ts.toNat → ts.toNat ≤ ts'.toNat →
    ∃ c c', deriveCounter ts t0 step = .ok c ∧ deriveCounter ts' t0 step = .ok c' ∧ c.toNat ≤ c'.toNat

/-- R102 (a) to (d): no wrap, no overflow, no division by zero: the quotient is exact and at most the difference, and a
result exists exactly when STEP is not 0 and TS is not before T0. -/
def Obligations.CounterDivisionIsExact : Prop :=
  (∀ (ts t0 step c : DWord), deriveCounter ts t0 step = .ok c →
    t0.toNat ≤ ts.toNat ∧ 0 < step.toNat ∧ c.toNat ≤ ts.toNat - t0.toNat ∧
    c.toNat * step.toNat ≤ ts.toNat - t0.toNat ∧ ts.toNat - t0.toNat < (c.toNat + 1) * step.toNat) ∧
  ∀ (ts t0 step : DWord), (∃ c, deriveCounter ts t0 step = .ok c) ↔ step ≠ 0 ∧ t0.toNat ≤ ts.toNat

/-- R114 (a) to (d), for both values of DIGIT_EXT: the remainder is below 10^d and at most b; with d = 10 it is b;
reductions compose; and the modulus fits 34 bits. -/
def Obligations.ReductionLaws : Prop :=
  (∀ d ∈ digitSetOf true, 10 ^ d < 2 ^ 34) ∧
  ∀ (b : Word), b.toNat < 2 ^ 31 →
    (∀ d ∈ digitSetOf true, (reduceDigits b d).toNat = b.toNat % 10 ^ d ∧ (reduceDigits b d).toNat < 10 ^ d ∧
      (reduceDigits b d).toNat ≤ b.toNat ∧ (reduceDigits b d).toNat < 2 ^ 31) ∧
    reduceDigits b 10 = b ∧
    ∀ d₁ ∈ digitSetOf true, ∀ d₂ ∈ digitSetOf true, d₁ ≤ d₂ →
      reduceDigits (reduceDigits b d₂) d₁ = reduceDigits b d₁

/-- R111: the offset is the low nibble of the last byte, at most 15; the high nibble is ignored; and the value depends on
no byte outside the four at the offset and that nibble, so that byte 19 is never one of the four. -/
def Obligations.TruncationReadsOnlyItsWindow : Prop :=
  ∀ dg dg' : Vector Byte 20,
    (dynOffset dg).val = byteNat dg 19 % 16 ∧ (dynOffset dg).val + 3 < 19 ∧
    (byteNat dg 19 % 16 = byteNat dg' 19 % 16 →
      (∀ j : Fin 4, byteNat dg ((dynOffset dg).val + j.val) = byteNat dg' ((dynOffset dg).val + j.val)) →
      dynTruncate dg = dynTruncate dg')

/-- R120: a shorter code is the end of a longer one of the same binary code, for both values of DIGIT_EXT. -/
def Obligations.ShorterCodeIsSuffix : Prop :=
  ∀ (b : Word) (d₁ d₂ : Nat), b.toNat < 2 ^ 31 → d₁ ∈ digitSetOf true → d₂ ∈ digitSetOf true → d₁ ≤ d₂ →
    (codeBytes (reduceDigits b d₁).toNat d₁).toList.take d₁ =
      ((codeBytes (reduceDigits b d₂).toNat d₂).toList.take d₂).drop (d₂ - d₁)

/-- The characters FORMAT writes spell NUM in decimal (from R116, R117). -/
def Obligations.CodeSpellsTheNumber : Prop :=
  ∀ (n d : Nat), d ∈ digitSetOf true → n < 10 ^ d → spelled ((codeBytes n d).toList.take d) = n

/-! ## Whole-machine rules -/

/-- R49: after reset the invariants hold. -/
def Obligations.ResetMeetsTheInvariants : Prop := Inv State.reset

/-- R49: every step of every agent keeps the invariants, from every state that meets them. -/
def Obligations.EveryStepKeepsTheInvariants : Prop :=
  ∀ s t : State, Inv s → step s = .next t → Inv t

/-- R175: a command that ends in error writes no result register and keeps the key unless Z = 1; beside STATUS, PCMD and
ENG it changes only CODE (to none), the working copies (to zero) and the scope. -/
def Obligations.FailedCommandWritesNoResult : Prop :=
  ∀ (s t : State) (rest : List Turn),
    (s.sched = .engine :: rest ∨ s.sched = .hmacu true :: rest ∨ s.sched = .hmacu false :: rest) →
    s.err = 0 → step s = .next t → t.err ≠ 0 →
    (t.ctr = s.ctr ∧ t.bin = s.bin ∧ t.num = s.num ∧ t.ts = s.ts ∧ t.t0 = s.t0 ∧ t.stepSize = s.stepSize) ∧
    (t.code = s.code ∧ t.codelen = s.codelen ∨ t.code = zeros 12 ∧ t.codelen = 0 ∧
      ∃ d z, decode s.pcmd = .ok (.format d z) ∨ decode s.pcmd = .ok (.dtf d z) ∨
        decode s.pcmd = .ok (.hotp d z) ∨ decode s.pcmd = .ok (.totp d z)) ∧
    (t.digest = s.digest ∨ t.digest = zeros 20) ∧ (t.req = s.req ∨ t.req = none) ∧ t.clatch = 0 ∧
    (if s.pcmd.getLsbD 12 then t.keybuf = zeros 64 ∧ t.keylen = 0 ∧ t.scope = false
      else t.keybuf = s.keybuf ∧ t.keylen = s.keylen ∧ t.scope = s.scope) ∧
    t.irqEn = s.irqEn ∧ t.ovr = s.ovr ∧ t.bus = s.bus ∧ t.host = s.host

/-- R150: an open scope ends only by KCLOSE, ZALL, the completion of a command with Z = 1, or reset, and when it ends the
whole buffer is zeroed in the same step. -/
def Obligations.ScopeEndsOnlyByItsFourWays : Prop :=
  ∀ s t : State, step s = .next t → s.scope = true → t.scope = false →
    (t.keybuf = zeros 64 ∧ t.keylen = 0) ∧
    (nextTurn s = .reset ∨
      (nextTurn s = .engine ∧ s.eng = .pend ∧
        (s.pcmd.getLsbD 12 = true ∨ decode s.pcmd = .ok (.kclose false) ∨ decode s.pcmd = .ok (.zall false))) ∨
      (∃ ok, nextTurn s = .hmacu ok ∧ s.eng = .wait ∧ s.pcmd.getLsbD 12 = true))

/-- R33: "KEYLEN changes only through KOPEN, KPUSH, ZEROIZE_SCOPE and reset", and so does the key. -/
def Obligations.KeyChangesOnlyByKeyCommands : Prop :=
  ∀ s t : State, step s = .next t → (t.keylen ≠ s.keylen ∨ t.keybuf ≠ s.keybuf) →
    (t.scope = false ∧ t.keylen = 0 ∧ t.keybuf = zeros 64) ∨
    (nextTurn s = .engine ∧ s.eng = .pend ∧
      ((∃ z, decode s.pcmd = .ok (.kopen z)) ∨ ∃ kb z, decode s.pcmd = .ok (.kpush kb z)))

/-- R158: when a legal HOTP or TOTP completes, on every exit path, the request's key copy, the digest and the latch are
erased. -/
def Obligations.WorkingCopiesErasedOnEveryExit : Prop :=
  ∀ (s t : State) (d : Nat) (z : Bool), (decode s.pcmd = .ok (.hotp d z) ∨ decode s.pcmd = .ok (.totp d z)) →
    s.eng ≠ .idle → step s = .next t → t.eng = .idle →
    t.req = none ∧ t.digest = zeros 20 ∧ t.clatch = 0

/-- R157: no read path. From two states that differ only in secret bytes, any turn but an OK answer of HMACU leads to
states that differ only in secret bytes, and every register reads the same in both. -/
def Obligations.SecretFlowsOnlyThroughAnOkAnswer : Prop :=
  ∀ s t : State, EqualButSecret s t → nextTurn s ≠ .hmacu true →
    OutcomesEqualButSecret (step s) (step t) ∧ ∀ r : Reg, readReg r s = readReg r t

/-- A pending command has ended after the ENGINE's turn and then HMACU's. From R210: a one-step or illegal word ends at the
ENGINE's turn, a HOTP or TOTP there or at the response. The model's, and no rule's: that these two turns come (log 1), and
that HMACU's turn after a command has ended leaves the state (log 2). -/
def Obligations.CommandEndsInAtMostTwoTurns : Prop :=
  ∀ (s : State) (ok : Bool) (rest : List Turn), s.eng = .pend → s.sched = .engine :: .hmacu ok :: rest →
    ∃ t u, step s = .next t ∧ step t = .next u ∧ u.eng = .idle ∧ u.busy = false ∧ u.done = true ∧ u.sched = rest

/-- R135, R136 together: a HOTP whose request is answered OK gives the code of HMAC_FN(key, BE8(CTR)), keeps CTR, and
leaves no digest, request or latch. -/
def Obligations.HotpGivesTheCodeOfItsHmac : Prop :=
  ∀ (s : State) (d : Nat) (z : Bool) (rest : List Turn), Supported d → s.keylen ≠ 0 → s.eng = .pend →
    decode s.pcmd = .ok (.hotp d z) → s.sched = .engine :: .hmacu true :: rest →
    ∃ t, step s = .next t ∧
      step t = .next (ended true z 0 0
        (withCode (Config.hmacFn (keyHeld s) (message s.ctr)) d (after rest s)))

/-- R142, composition: a TOTP answered OK leaves in BIN, NUM, CODE, CODELEN and CTR what `derive` and then `hotp d`,
answered OK, leave. -/
def Obligations.TotpIsDeriveThenHotp : Prop :=
  ∀ (s : State) (d : Nat) (z z' : Bool), Supported d → s.stepSize ≠ 0 → s.t0.toNat ≤ s.ts.toNat → s.keylen ≠ 0 →
    s.eng = .idle → s.busy = false →
    ∃ t u : State,
      StepsTo 3 { s with sched :=
        [.bus (.write (Config.base + 0x10) 4 (encode (.totp d z))), .engine, .hmacu true] } t ∧
      StepsTo 5 { s with sched :=
        [.bus (.write (Config.base + 0x10) 4 (encode (.derive false))), .engine,
         .bus (.write (Config.base + 0x10) 4 (encode (.hotp d z'))), .engine, .hmacu true] } u ∧
      t.err = 0 ∧ u.err = 0 ∧
      t.bin = u.bin ∧ t.num = u.num ∧ t.code = u.code ∧ t.codelen = u.codelen ∧ t.ctr = u.ctr
end

