-- ==== Sys2Proof/Laws/Encoding.lean ====
section
/-! SUPPORT. The fields of an assembled word, and what a decoded word's fields are (30_encoding.md R81, R88, R89, R93). -/

namespace Sys2Proof

/-- The word assembled from its fields, reserved fields 0. -/
def wordOf (op : BitVec 8) (d : BitVec 4) (z : Bool) (kb : Byte) : Word :=
  op.setWidth 32 ||| (d.setWidth 32 <<< 8) ||| ((BitVec.ofBool z).setWidth 32 <<< 12) ||| (kb.setWidth 32 <<< 16)

@[simp] theorem opField_wordOf (op : BitVec 8) (d : BitVec 4) (z : Bool) (kb : Byte) :
    opField (wordOf op d z kb) = op := by
  ext i hi
  interval_cases i <;> simp [opField, wordOf]

@[simp] theorem digField_wordOf (op : BitVec 8) (d : BitVec 4) (z : Bool) (kb : Byte) :
    digField (wordOf op d z kb) = d := by
  ext i hi
  interval_cases i <;> simp [digField, wordOf]

@[simp] theorem zField_wordOf (op : BitVec 8) (d : BitVec 4) (z : Bool) (kb : Byte) :
    zField (wordOf op d z kb) = z := by
  simp [zField, wordOf]

@[simp] theorem kbField_wordOf (op : BitVec 8) (d : BitVec 4) (z : Bool) (kb : Byte) :
    kbField (wordOf op d z kb) = kb := by
  ext i hi
  interval_cases i <;> simp [kbField, wordOf]

@[simp] theorem rsv1Field_wordOf (op : BitVec 8) (d : BitVec 4) (z : Bool) (kb : Byte) :
    rsv1Field (wordOf op d z kb) = 0 := by
  ext i hi
  interval_cases i <;> simp [rsv1Field, wordOf]

@[simp] theorem rsv2Field_wordOf (op : BitVec 8) (d : BitVec 4) (z : Bool) (kb : Byte) :
    rsv2Field (wordOf op d z kb) = 0 := by
  ext i hi
  interval_cases i <;> simp [rsv2Field, wordOf]

/-- A word is its seven fields. -/
theorem eq_of_fields {v w : Word} (h0 : opField v = opField w) (h1 : digField v = digField w)
    (h2 : zField v = zField w) (h3 : rsv1Field v = rsv1Field w) (h4 : kbField v = kbField w)
    (h5 : rsv2Field v = rsv2Field w) : v = w := by
  have bit {n : Nat} (lo : Nat) (h : v.extractLsb' lo n = w.extractLsb' lo n) (j : Nat) (hj : j < n) :
      v.getLsbD (lo + j) = w.getLsbD (lo + j) := by
    have := congrArg (fun u : BitVec n => u.getLsbD j) h
    simpa [hj] using this
  apply BitVec.eq_of_getLsbD_eq
  intro i hi
  by_cases a : i < 8
  · simpa using bit 0 h0 i a
  by_cases b : i < 12
  · simpa [show 8 + (i - 8) = i by omega] using bit 8 h1 (i - 8) (by omega)
  by_cases c : i = 12
  · subst c; exact h2
  by_cases d : i < 16
  · simpa [show 13 + (i - 13) = i by omega] using bit 13 h3 (i - 13) (by omega)
  by_cases e : i < 24
  · simpa [show 16 + (i - 16) = i by omega] using bit 16 h4 (i - 16) (by omega)
  · simpa [show 24 + (i - 24) = i by omega] using bit 24 h5 (i - 24) (by omega)

/-- Two words are equal exactly when their fields are. -/
theorem eq_iff_fields {v w : Word} : v = w ↔ opField v = opField w ∧ digField v = digField w ∧
    zField v = zField w ∧ rsv1Field v = rsv1Field w ∧ kbField v = kbField w ∧ rsv2Field v = rsv2Field w :=
  ⟨fun h => by subst h; exact ⟨rfl, rfl, rfl, rfl, rfl, rfl⟩,
    fun ⟨h0, h1, h2, h3, h4, h5⟩ => eq_of_fields h0 h1 h2 h3 h4 h5⟩

/-! ### Masking acts field by field -/

theorem opField_and (v w : Word) : opField (v &&& w) = opField v &&& opField w := BitVec.extractLsb'_and
theorem digField_and (v w : Word) : digField (v &&& w) = digField v &&& digField w := BitVec.extractLsb'_and
theorem zField_and (v w : Word) : zField (v &&& w) = (zField v && zField w) := BitVec.getLsbD_and
theorem rsv1Field_and (v w : Word) : rsv1Field (v &&& w) = rsv1Field v &&& rsv1Field w := BitVec.extractLsb'_and
theorem kbField_and (v w : Word) : kbField (v &&& w) = kbField v &&& kbField w := BitVec.extractLsb'_and
theorem rsv2Field_and (v w : Word) : rsv2Field (v &&& w) = rsv2Field v &&& rsv2Field w := BitVec.extractLsb'_and

/-- A word whose reserved fields are 0 is assembled from its other fields. -/
theorem wordOf_fields {w : Word} (h1 : rsv1Field w = 0) (h2 : rsv2Field w = 0) :
    wordOf (opField w) (digField w) (zField w) (kbField w) = w :=
  eq_of_fields (by simp) (by simp) (by simp) (by simp [h1]) (by simp) (by simp [h2])

/-- A well-formed command's word, by fields. -/
theorem encode_eq_wordOf {i : Instr} (h : i.dig < 16) :
    encode i = wordOf i.op (BitVec.ofNat 4 i.dig) i.z i.kb := by
  have : (BitVec.ofNat 32 i.dig : Word) = (BitVec.ofNat 4 i.dig).setWidth 32 := by
    apply BitVec.eq_of_toNat_eq
    simp
    omega
  simp [encode, wordOf, this]

theorem Instr.dig_lt_of_wf {i : Instr} (h : i.wf = true) : i.dig < 16 := by
  cases i <;> simp_all [Instr.wf, Instr.dig, digFits]

/-- `commandOf` at the opcode of a command gives the command back. -/
theorem commandOf_op (i : Instr) : commandOf i.op i.dig i.z i.kb = some i := by
  cases i <;> simp [commandOf, Instr.op, Instr.dig, Instr.z, Instr.kb]

/-- The opcodes that name a command (R87). -/
def namedOpcodes : List (BitVec 8) :=
  [0x00#8, 0x01#8, 0x10#8, 0x11#8, 0x12#8, 0x13#8, 0x20#8, 0x21#8, 0x30#8, 0x31#8, 0x32#8, 0x3F#8]

/-- A property of the opcodes that name a command is checked opcode by opcode. -/
theorem namedOpcodes_cases {P : BitVec 8 → Prop} {op : BitVec 8} (h : op ∈ namedOpcodes)
    (h00 : P 0x00) (h01 : P 0x01) (h10 : P 0x10) (h11 : P 0x11) (h12 : P 0x12) (h13 : P 0x13) (h20 : P 0x20)
    (h21 : P 0x21) (h30 : P 0x30) (h31 : P 0x31) (h32 : P 0x32) (h3F : P 0x3F) : P op := by
  simp only [namedOpcodes, List.mem_cons, List.not_mem_nil, or_false] at h
  rcases h with rfl | rfl | rfl | rfl | rfl | rfl | rfl | rfl | rfl | rfl | rfl | rfl <;> assumption

/-- `commandOf` names nothing at a reserved opcode. -/
theorem commandOf_reserved {op : BitVec 8} (d : Nat) (z : Bool) (kb : Byte) (h : op ∉ namedOpcodes) :
    commandOf op d z kb = none := by
  simp only [namedOpcodes, List.mem_cons, List.not_mem_nil, or_false, not_or] at h
  obtain ⟨h0, h1, h2, h3, h4, h5, h6, h7, h8, h9, h10, h11⟩ := h
  rw [commandOf, if_neg h0, if_neg h1, if_neg h2, if_neg h3, if_neg h4, if_neg h5, if_neg h6, if_neg h7, if_neg h8,
    if_neg h9, if_neg h10, if_neg h11]

/-- At a named opcode `commandOf` names a command, which has that opcode and Z bit and carries the operands its opcode
takes. -/
theorem commandOf_named {op : BitVec 8} (d : Nat) (z : Bool) (kb : Byte) (h : op ∈ namedOpcodes) :
    ∃ i, commandOf op d z kb = some i ∧ i.op = op ∧ i.z = z ∧ i.dig = (if takesDig op then d else 0) ∧
      i.kb = (if takesKb op then kb else 0) := by
  revert d z kb
  refine namedOpcodes_cases (P := fun op => ∀ (d : Nat) (z : Bool) (kb : Byte), ∃ i, commandOf op d z kb = some i ∧
    i.op = op ∧ i.z = z ∧ i.dig = (if takesDig op then d else 0) ∧ i.kb = (if takesKb op then kb else 0)) h
    ?_ ?_ ?_ ?_ ?_ ?_ ?_ ?_ ?_ ?_ ?_ ?_ <;>
  exact fun _ _ _ => ⟨_, rfl, rfl, rfl, rfl, rfl⟩

/-- `commandOf` names nothing exactly at a reserved opcode. -/
theorem commandOf_none {op : BitVec 8} {d : Nat} {z : Bool} {kb : Byte} :
    commandOf op d z kb = none ↔ op ∉ namedOpcodes := by
  refine ⟨fun h hop => ?_, commandOf_reserved d z kb⟩
  obtain ⟨i, hi, -⟩ := commandOf_named d z kb hop
  rw [hi] at h
  cases h

/-- What `commandOf` names has that opcode and Z bit, and carries the operands its opcode takes. -/
theorem commandOf_some {op : BitVec 8} {d : Nat} {z : Bool} {kb : Byte} {i : Instr}
    (h : commandOf op d z kb = some i) :
    op ∈ namedOpcodes ∧ i.op = op ∧ i.z = z ∧ i.dig = (if takesDig op then d else 0) ∧
      i.kb = (if takesKb op then kb else 0) := by
  by_cases hop : op ∈ namedOpcodes
  · obtain ⟨j, hj, rest⟩ := commandOf_named d z kb hop
    rw [hj] at h
    cases h
    exact ⟨hop, rest⟩
  · rw [commandOf_reserved d z kb hop] at h
    cases h

/-- What a word that decodes looks like, field by field. -/
theorem decode_ok_fields {w : Word} {i : Instr} (h : decode w = .ok i) :
    i.op = opField w ∧ i.z = zField w ∧ i.dig = (digField w).toNat ∧ i.kb = kbField w ∧
      rsv1Field w = 0 ∧ rsv2Field w = 0 := by
  unfold decode at h
  split at h
  · cases h
  · rename_i j hj
    obtain ⟨-, h0, h1, h2, h3⟩ := commandOf_some hj
    split_ifs at h with a b c
    cases h
    rw [not_or, not_ne_iff, not_ne_iff] at a
    refine ⟨h0, h1, ?_, ?_, a.1, a.2⟩
    · cases hd : takesDig (opField w) <;> simp_all
    · cases hk : takesKb (opField w) <;> simp_all

/-- A word whose opcode names a command, with reserved and unused fields 0, decodes to it. -/
theorem decode_of_fields {w : Word} {i : Instr}
    (hi : commandOf (opField w) (digField w).toNat (zField w) (kbField w) = some i)
    (h1 : rsv1Field w = 0) (h2 : rsv2Field w = 0)
    (hd : takesDig (opField w) = true ∨ digField w = 0)
    (hk : takesKb (opField w) = true ∨ kbField w = 0) : decode w = .ok i := by
  unfold decode
  rw [hi]
  rcases hd with hd | hd <;> rcases hk with hk | hk <;> simp [h1, h2, hd, hk]

/-- A word whose opcode names a command decodes, or is illegal with RESERVED_FIELD. -/
theorem decode_reservedField {w : Word} {i : Instr}
    (hi : commandOf (opField w) (digField w).toNat (zField w) (kbField w) = some i)
    (h : rsv1Field w ≠ 0 ∨ rsv2Field w ≠ 0 ∨ (takesDig (opField w) = false ∧ digField w ≠ 0) ∨
      (takesKb (opField w) = false ∧ kbField w ≠ 0)) : decode w = .error .reservedField := by
  unfold decode
  rw [hi]
  dsimp only
  split_ifs with a b c <;> first | rfl | (exfalso; tauto)

/-! ### The masks of R88 -/

/-- The mask of the commands without an operand (R88). -/
theorem and_noOperandMask_iff (w : Word) (op : BitVec 8) :
    w &&& 0xFFFFEFFF = wordOf op 0 false 0 ↔ opField w = op ∧ digField w = 0 ∧ rsv1Field w = 0 ∧ kbField w = 0 ∧ rsv2Field w = 0 := by
  rw [eq_iff_fields, opField_and, digField_and, zField_and, rsv1Field_and, kbField_and, rsv2Field_and]
  simp only [opField_wordOf, digField_wordOf, zField_wordOf, rsv1Field_wordOf, kbField_wordOf, rsv2Field_wordOf]
  rw [show opField 0xFFFFEFFF = BitVec.allOnes 8 from rfl, show digField 0xFFFFEFFF = BitVec.allOnes 4 from rfl, show zField 0xFFFFEFFF = false from rfl, show rsv1Field 0xFFFFEFFF = BitVec.allOnes 3 from rfl, show kbField 0xFFFFEFFF = BitVec.allOnes 8 from rfl, show rsv2Field 0xFFFFEFFF = BitVec.allOnes 8 from rfl]
  simp only [BitVec.and_allOnes, Bool.and_false, true_and]

/-- The mask of the commands with a DigitCount (R88). -/
theorem and_digitMask_iff (w : Word) (op : BitVec 8) :
    w &&& 0xFFFFE0FF = wordOf op 0 false 0 ↔ opField w = op ∧ rsv1Field w = 0 ∧ kbField w = 0 ∧ rsv2Field w = 0 := by
  rw [eq_iff_fields, opField_and, digField_and, zField_and, rsv1Field_and, kbField_and, rsv2Field_and]
  simp only [opField_wordOf, digField_wordOf, zField_wordOf, rsv1Field_wordOf, kbField_wordOf, rsv2Field_wordOf]
  rw [show opField 0xFFFFE0FF = BitVec.allOnes 8 from rfl, show digField 0xFFFFE0FF = 0#4 from rfl, show zField 0xFFFFE0FF = false from rfl, show rsv1Field 0xFFFFE0FF = BitVec.allOnes 3 from rfl, show kbField 0xFFFFE0FF = BitVec.allOnes 8 from rfl, show rsv2Field 0xFFFFE0FF = BitVec.allOnes 8 from rfl]
  simp only [BitVec.and_allOnes, Bool.and_false, BitVec.and_zero, BitVec.ofNat_eq_ofNat, true_and]

/-- The mask of the command with a key byte (R88). -/
theorem and_keyByteMask_iff (w : Word) (op : BitVec 8) :
    w &&& 0xFF00EFFF = wordOf op 0 false 0 ↔ opField w = op ∧ digField w = 0 ∧ rsv1Field w = 0 ∧ rsv2Field w = 0 := by
  rw [eq_iff_fields, opField_and, digField_and, zField_and, rsv1Field_and, kbField_and, rsv2Field_and]
  simp only [opField_wordOf, digField_wordOf, zField_wordOf, rsv1Field_wordOf, kbField_wordOf, rsv2Field_wordOf]
  rw [show opField 0xFF00EFFF = BitVec.allOnes 8 from rfl, show digField 0xFF00EFFF = BitVec.allOnes 4 from rfl, show zField 0xFF00EFFF = false from rfl, show rsv1Field 0xFF00EFFF = BitVec.allOnes 3 from rfl, show kbField 0xFF00EFFF = 0#8 from rfl, show rsv2Field 0xFF00EFFF = BitVec.allOnes 8 from rfl]
  simp only [BitVec.and_allOnes, Bool.and_false, BitVec.and_zero, BitVec.ofNat_eq_ofNat, true_and]

end Sys2Proof
end

