-- ==== Sys2Proof/Laws/Operands.lean ====
section
/-! SUPPORT. One spec lemma per operand function: DigitCount validation, counter derivation, truncation, reduction and
formatting (40_counter.md R100, R102, 41_hotp_core.md R110 to R116). -/

namespace Sys2Proof.Machine

/-- R110 with DIGIT_EXT = 0. -/
theorem validDigits_iff {d : Nat} : validDigits d = true ↔ d = 6 ∨ d = 7 ∨ d = 8 := by
  simp [validDigits, digitSet, digitSetOf, Config.digitExt]

theorem validDigits_eq_false {d : Nat} : validDigits d = false ↔ ¬ (d = 6 ∨ d = 7 ∨ d = 8) := by
  rw [← validDigits_iff, Bool.not_eq_true]

theorem mem_digitSet_of_valid {d : Nat} (h : validDigits d = true) : d ∈ digitSet := by
  simpa [validDigits] using h

theorem deriveCounter_stepZero (ts t0 : DWord) : deriveCounter ts t0 0 = .error .stepZero := by
  simp [deriveCounter]

theorem deriveCounter_tsBeforeT0 {ts t0 step : DWord} (h : step ≠ 0) (ht : ts.toNat < t0.toNat) :
    deriveCounter ts t0 step = .error .tsBeforeT0 := by
  rw [deriveCounter, if_neg h, if_pos (BitVec.lt_def.mpr ht)]

theorem deriveCounter_ok {ts t0 step : DWord} (h : step ≠ 0) (ht : t0.toNat ≤ ts.toNat) :
    deriveCounter ts t0 step = .ok (BitVec.ofNat 64 ((ts.toNat - t0.toNat) / step.toNat)) := by
  rw [deriveCounter, if_neg h, if_neg (fun hl => absurd (BitVec.lt_def.mp hl) (by omega))]

/-- Everything `deriveCounter` can answer, as one chain of cases. -/
theorem deriveCounter_cases (ts t0 step : DWord) :
    deriveCounter ts t0 step =
      if step = 0 then .error .stepZero
      else if ts.toNat < t0.toNat then .error .tsBeforeT0
      else .ok (BitVec.ofNat 64 ((ts.toNat - t0.toNat) / step.toNat)) := by
  split_ifs with h ht
  · subst h; exact deriveCounter_stepZero ts t0
  · exact deriveCounter_tsBeforeT0 h ht
  · exact deriveCounter_ok h (by omega)

/-- The quotient fits 64 bits (R102 c). -/
theorem quotient_lt (ts t0 step : DWord) : (ts.toNat - t0.toNat) / step.toNat < 2 ^ 64 :=
  lt_of_le_of_lt (Nat.div_le_self _ _) (lt_of_le_of_lt (Nat.sub_le _ _) ts.isLt)

@[simp] theorem quotient_toNat (ts t0 step : DWord) :
    (BitVec.ofNat 64 ((ts.toNat - t0.toNat) / step.toNat)).toNat = (ts.toNat - t0.toNat) / step.toNat := by
  rw [BitVec.toNat_ofNat, Nat.mod_eq_of_lt (quotient_lt ts t0 step)]

/-- Masking with 0x7FFFFFFF is the remainder by 2^31. -/
theorem mask31_toNat (w : Word) : (w &&& 0x7FFFFFFF).toNat = w.toNat % 2 ^ 31 := by
  rw [BitVec.toNat_and]
  exact Nat.and_two_pow_sub_one_eq_mod w.toNat 31

/-- Concatenation in integers (R7). -/
theorem append_toNat {n m : Nat} (a : BitVec n) (b : BitVec m) : (a ++ b).toNat = a.toNat * 2 ^ m + b.toNat := by
  rw [BitVec.toNat_append, ← Nat.shiftLeft_add_eq_or_of_lt b.isLt, Nat.shiftLeft_eq]

/-- `BE32` in integers (R9). -/
theorem be32_toNat (dg : Vector Byte 20) (i : Fin 16) :
    (be32 dg i).toNat = (dg[i.val]).toNat * 2 ^ 24 + (dg[i.val + 1]).toNat * 2 ^ 16 +
      (dg[i.val + 2]).toNat * 2 ^ 8 + (dg[i.val + 3]).toNat := by
  rw [be32, append_toNat, append_toNat, append_toNat]
  omega

/-- R112: the value truncation gives, in integers. -/
theorem dynTruncate_toNat (dg : Vector Byte 20) :
    (dynTruncate dg).toNat = (be32 dg (dynOffset dg)).toNat % 2 ^ 31 := mask31_toNat _

/-- R40: BIN's bit 31 is 0. -/
theorem dynTruncate_lt (dg : Vector Byte 20) : (dynTruncate dg).toNat < 2 ^ 31 := by
  rw [dynTruncate_toNat]
  exact Nat.mod_lt _ (by decide)

/-- R114: the remainder needs no narrowing. -/
@[simp] theorem reduceDigits_toNat (b : Word) (d : Nat) : (reduceDigits b d).toNat = b.toNat % 10 ^ d := by
  rw [reduceDigits, BitVec.toNat_ofNat]
  exact Nat.mod_eq_of_lt (lt_of_le_of_lt (Nat.mod_le _ _) b.isLt)

/-- R114 (b). -/
theorem reduceDigits_le (b : Word) (d : Nat) : (reduceDigits b d).toNat ≤ b.toNat := by
  rw [reduceDigits_toNat]
  exact Nat.mod_le _ _

/-- R114 (a). -/
theorem reduceDigits_lt (b : Word) (d : Nat) : (reduceDigits b d).toNat < 10 ^ d := by
  rw [reduceDigits_toNat]
  exact Nat.mod_lt _ (Nat.pow_pos (by decide))

/-- The value of a decimal character (R116). -/
theorem decChar_toNat (n k i : Nat) : (decChar n k i).toNat = 0x30 + n / 10 ^ (k - 1 - i) % 10 := by
  have : n / 10 ^ (k - 1 - i) % 10 < 10 := Nat.mod_lt _ (by decide)
  rw [decChar, BitVec.toNat_ofNat]
  exact Nat.mod_eq_of_lt (by omega)

@[simp] theorem codeBytes_getElem (n k i : Nat) (h : i < 12) :
    (codeBytes n k)[i] = if i < k then decChar n k i else 0 := by
  simp [codeBytes]

/-- R42: what `write_code` writes has CODE's shape. -/
theorem codeBytes_shape (n k : Nat) : CodeShape (codeBytes n k) k := by
  intro i
  split_ifs with h
  · have : n / 10 ^ (k - 1 - i.val) % 10 < 10 := Nat.mod_lt _ (by decide)
    rw [codeBytes_getElem _ _ _ i.isLt, if_pos h, decChar_toNat]
    omega
  · rw [codeBytes_getElem _ _ _ i.isLt, if_neg h]

/-- R42: no code has CODE's shape for CODELEN = 0. -/
theorem noCode_shape : CodeShape (Vector.replicate 12 0) 0 := by
  intro i
  simp

/-- A supported DigitCount fits CODELEN. -/
theorem codelen_toNat {d : Nat} (h : validDigits d = true) : (BitVec.ofNat 4 d).toNat = d := by
  rcases validDigits_iff.mp h with rfl | rfl | rfl <;> rfl

end Sys2Proof.Machine
end

