-- ==== Sys2Proof/Laws/State.lean ====
section
/-! SUPPORT. One lemma per field of State for each shared operation: what the operation leaves in that field. -/

namespace Sys2Proof.Machine

variable (s : State)

/-! ## zeroizeScope -/

@[simp] theorem zeroizeScope_irqEn : (zeroizeScope s).irqEn = s.irqEn := rfl
@[simp] theorem zeroizeScope_busy : (zeroizeScope s).busy = s.busy := rfl
@[simp] theorem zeroizeScope_done : (zeroizeScope s).done = s.done := rfl
@[simp] theorem zeroizeScope_ovr : (zeroizeScope s).ovr = s.ovr := rfl
@[simp] theorem zeroizeScope_scope : (zeroizeScope s).scope = false := rfl
@[simp] theorem zeroizeScope_err : (zeroizeScope s).err = s.err := rfl
@[simp] theorem zeroizeScope_info : (zeroizeScope s).info = s.info := rfl
@[simp] theorem zeroizeScope_keylen : (zeroizeScope s).keylen = 0 := rfl
@[simp] theorem zeroizeScope_codelen : (zeroizeScope s).codelen = s.codelen := rfl
@[simp] theorem zeroizeScope_ts : (zeroizeScope s).ts = s.ts := rfl
@[simp] theorem zeroizeScope_t0 : (zeroizeScope s).t0 = s.t0 := rfl
@[simp] theorem zeroizeScope_stepSize : (zeroizeScope s).stepSize = s.stepSize := rfl
@[simp] theorem zeroizeScope_ctr : (zeroizeScope s).ctr = s.ctr := rfl
@[simp] theorem zeroizeScope_digest : (zeroizeScope s).digest = s.digest := rfl
@[simp] theorem zeroizeScope_bin : (zeroizeScope s).bin = s.bin := rfl
@[simp] theorem zeroizeScope_num : (zeroizeScope s).num = s.num := rfl
@[simp] theorem zeroizeScope_code : (zeroizeScope s).code = s.code := rfl
@[simp] theorem zeroizeScope_keybuf : (zeroizeScope s).keybuf = Vector.replicate Config.keyMax 0 := rfl
@[simp] theorem zeroizeScope_eng : (zeroizeScope s).eng = s.eng := rfl
@[simp] theorem zeroizeScope_pcmd : (zeroizeScope s).pcmd = s.pcmd := rfl
@[simp] theorem zeroizeScope_clatch : (zeroizeScope s).clatch = s.clatch := rfl
@[simp] theorem zeroizeScope_req : (zeroizeScope s).req = s.req := rfl
@[simp] theorem zeroizeScope_bus : (zeroizeScope s).bus = s.bus := rfl
@[simp] theorem zeroizeScope_host : (zeroizeScope s).host = s.host := rfl
@[simp] theorem zeroizeScope_sched : (zeroizeScope s).sched = s.sched := rfl
@[simp] theorem zeroizeScope_draws : (zeroizeScope s).draws = s.draws := rfl

/-! ## zeroDigest -/

@[simp] theorem zeroDigest_irqEn : (zeroDigest s).irqEn = s.irqEn := rfl
@[simp] theorem zeroDigest_busy : (zeroDigest s).busy = s.busy := rfl
@[simp] theorem zeroDigest_done : (zeroDigest s).done = s.done := rfl
@[simp] theorem zeroDigest_ovr : (zeroDigest s).ovr = s.ovr := rfl
@[simp] theorem zeroDigest_scope : (zeroDigest s).scope = s.scope := rfl
@[simp] theorem zeroDigest_err : (zeroDigest s).err = s.err := rfl
@[simp] theorem zeroDigest_info : (zeroDigest s).info = s.info := rfl
@[simp] theorem zeroDigest_keylen : (zeroDigest s).keylen = s.keylen := rfl
@[simp] theorem zeroDigest_codelen : (zeroDigest s).codelen = s.codelen := rfl
@[simp] theorem zeroDigest_ts : (zeroDigest s).ts = s.ts := rfl
@[simp] theorem zeroDigest_t0 : (zeroDigest s).t0 = s.t0 := rfl
@[simp] theorem zeroDigest_stepSize : (zeroDigest s).stepSize = s.stepSize := rfl
@[simp] theorem zeroDigest_ctr : (zeroDigest s).ctr = s.ctr := rfl
@[simp] theorem zeroDigest_digest : (zeroDigest s).digest = Vector.replicate 20 0 := rfl
@[simp] theorem zeroDigest_bin : (zeroDigest s).bin = s.bin := rfl
@[simp] theorem zeroDigest_num : (zeroDigest s).num = s.num := rfl
@[simp] theorem zeroDigest_code : (zeroDigest s).code = s.code := rfl
@[simp] theorem zeroDigest_keybuf : (zeroDigest s).keybuf = s.keybuf := rfl
@[simp] theorem zeroDigest_eng : (zeroDigest s).eng = s.eng := rfl
@[simp] theorem zeroDigest_pcmd : (zeroDigest s).pcmd = s.pcmd := rfl
@[simp] theorem zeroDigest_clatch : (zeroDigest s).clatch = s.clatch := rfl
@[simp] theorem zeroDigest_req : (zeroDigest s).req = s.req := rfl
@[simp] theorem zeroDigest_bus : (zeroDigest s).bus = s.bus := rfl
@[simp] theorem zeroDigest_host : (zeroDigest s).host = s.host := rfl
@[simp] theorem zeroDigest_sched : (zeroDigest s).sched = s.sched := rfl
@[simp] theorem zeroDigest_draws : (zeroDigest s).draws = s.draws := rfl

/-! ## invalidateCode -/

@[simp] theorem invalidateCode_irqEn : (invalidateCode s).irqEn = s.irqEn := rfl
@[simp] theorem invalidateCode_busy : (invalidateCode s).busy = s.busy := rfl
@[simp] theorem invalidateCode_done : (invalidateCode s).done = s.done := rfl
@[simp] theorem invalidateCode_ovr : (invalidateCode s).ovr = s.ovr := rfl
@[simp] theorem invalidateCode_scope : (invalidateCode s).scope = s.scope := rfl
@[simp] theorem invalidateCode_err : (invalidateCode s).err = s.err := rfl
@[simp] theorem invalidateCode_info : (invalidateCode s).info = s.info := rfl
@[simp] theorem invalidateCode_keylen : (invalidateCode s).keylen = s.keylen := rfl
@[simp] theorem invalidateCode_codelen : (invalidateCode s).codelen = 0 := rfl
@[simp] theorem invalidateCode_ts : (invalidateCode s).ts = s.ts := rfl
@[simp] theorem invalidateCode_t0 : (invalidateCode s).t0 = s.t0 := rfl
@[simp] theorem invalidateCode_stepSize : (invalidateCode s).stepSize = s.stepSize := rfl
@[simp] theorem invalidateCode_ctr : (invalidateCode s).ctr = s.ctr := rfl
@[simp] theorem invalidateCode_digest : (invalidateCode s).digest = s.digest := rfl
@[simp] theorem invalidateCode_bin : (invalidateCode s).bin = s.bin := rfl
@[simp] theorem invalidateCode_num : (invalidateCode s).num = s.num := rfl
@[simp] theorem invalidateCode_code : (invalidateCode s).code = Vector.replicate 12 0 := rfl
@[simp] theorem invalidateCode_keybuf : (invalidateCode s).keybuf = s.keybuf := rfl
@[simp] theorem invalidateCode_eng : (invalidateCode s).eng = s.eng := rfl
@[simp] theorem invalidateCode_pcmd : (invalidateCode s).pcmd = s.pcmd := rfl
@[simp] theorem invalidateCode_clatch : (invalidateCode s).clatch = s.clatch := rfl
@[simp] theorem invalidateCode_req : (invalidateCode s).req = s.req := rfl
@[simp] theorem invalidateCode_bus : (invalidateCode s).bus = s.bus := rfl
@[simp] theorem invalidateCode_host : (invalidateCode s).host = s.host := rfl
@[simp] theorem invalidateCode_sched : (invalidateCode s).sched = s.sched := rfl
@[simp] theorem invalidateCode_draws : (invalidateCode s).draws = s.draws := rfl

/-! ## writeCode -/

@[simp] theorem writeCode_irqEn (n : Word) (k : Nat) : (writeCode n k s).irqEn = s.irqEn := rfl
@[simp] theorem writeCode_busy (n : Word) (k : Nat) : (writeCode n k s).busy = s.busy := rfl
@[simp] theorem writeCode_done (n : Word) (k : Nat) : (writeCode n k s).done = s.done := rfl
@[simp] theorem writeCode_ovr (n : Word) (k : Nat) : (writeCode n k s).ovr = s.ovr := rfl
@[simp] theorem writeCode_scope (n : Word) (k : Nat) : (writeCode n k s).scope = s.scope := rfl
@[simp] theorem writeCode_err (n : Word) (k : Nat) : (writeCode n k s).err = s.err := rfl
@[simp] theorem writeCode_info (n : Word) (k : Nat) : (writeCode n k s).info = s.info := rfl
@[simp] theorem writeCode_keylen (n : Word) (k : Nat) : (writeCode n k s).keylen = s.keylen := rfl
@[simp] theorem writeCode_codelen (n : Word) (k : Nat) : (writeCode n k s).codelen = BitVec.ofNat 4 k := rfl
@[simp] theorem writeCode_ts (n : Word) (k : Nat) : (writeCode n k s).ts = s.ts := rfl
@[simp] theorem writeCode_t0 (n : Word) (k : Nat) : (writeCode n k s).t0 = s.t0 := rfl
@[simp] theorem writeCode_stepSize (n : Word) (k : Nat) : (writeCode n k s).stepSize = s.stepSize := rfl
@[simp] theorem writeCode_ctr (n : Word) (k : Nat) : (writeCode n k s).ctr = s.ctr := rfl
@[simp] theorem writeCode_digest (n : Word) (k : Nat) : (writeCode n k s).digest = s.digest := rfl
@[simp] theorem writeCode_bin (n : Word) (k : Nat) : (writeCode n k s).bin = s.bin := rfl
@[simp] theorem writeCode_num (n : Word) (k : Nat) : (writeCode n k s).num = s.num := rfl
@[simp] theorem writeCode_code (n : Word) (k : Nat) : (writeCode n k s).code = codeBytes n.toNat k := rfl
@[simp] theorem writeCode_keybuf (n : Word) (k : Nat) : (writeCode n k s).keybuf = s.keybuf := rfl
@[simp] theorem writeCode_eng (n : Word) (k : Nat) : (writeCode n k s).eng = s.eng := rfl
@[simp] theorem writeCode_pcmd (n : Word) (k : Nat) : (writeCode n k s).pcmd = s.pcmd := rfl
@[simp] theorem writeCode_clatch (n : Word) (k : Nat) : (writeCode n k s).clatch = s.clatch := rfl
@[simp] theorem writeCode_req (n : Word) (k : Nat) : (writeCode n k s).req = s.req := rfl
@[simp] theorem writeCode_bus (n : Word) (k : Nat) : (writeCode n k s).bus = s.bus := rfl
@[simp] theorem writeCode_host (n : Word) (k : Nat) : (writeCode n k s).host = s.host := rfl
@[simp] theorem writeCode_sched (n : Word) (k : Nat) : (writeCode n k s).sched = s.sched := rfl
@[simp] theorem writeCode_draws (n : Word) (k : Nat) : (writeCode n k s).draws = s.draws := rfl

/-! ## issueHmac -/

@[simp] theorem issueHmac_irqEn (c : DWord) : (issueHmac c s).irqEn = s.irqEn := rfl
@[simp] theorem issueHmac_busy (c : DWord) : (issueHmac c s).busy = s.busy := rfl
@[simp] theorem issueHmac_done (c : DWord) : (issueHmac c s).done = s.done := rfl
@[simp] theorem issueHmac_ovr (c : DWord) : (issueHmac c s).ovr = s.ovr := rfl
@[simp] theorem issueHmac_scope (c : DWord) : (issueHmac c s).scope = s.scope := rfl
@[simp] theorem issueHmac_err (c : DWord) : (issueHmac c s).err = s.err := rfl
@[simp] theorem issueHmac_info (c : DWord) : (issueHmac c s).info = s.info := rfl
@[simp] theorem issueHmac_keylen (c : DWord) : (issueHmac c s).keylen = s.keylen := rfl
@[simp] theorem issueHmac_codelen (c : DWord) : (issueHmac c s).codelen = s.codelen := rfl
@[simp] theorem issueHmac_ts (c : DWord) : (issueHmac c s).ts = s.ts := rfl
@[simp] theorem issueHmac_t0 (c : DWord) : (issueHmac c s).t0 = s.t0 := rfl
@[simp] theorem issueHmac_stepSize (c : DWord) : (issueHmac c s).stepSize = s.stepSize := rfl
@[simp] theorem issueHmac_ctr (c : DWord) : (issueHmac c s).ctr = s.ctr := rfl
@[simp] theorem issueHmac_digest (c : DWord) : (issueHmac c s).digest = s.digest := rfl
@[simp] theorem issueHmac_bin (c : DWord) : (issueHmac c s).bin = s.bin := rfl
@[simp] theorem issueHmac_num (c : DWord) : (issueHmac c s).num = s.num := rfl
@[simp] theorem issueHmac_code (c : DWord) : (issueHmac c s).code = s.code := rfl
@[simp] theorem issueHmac_keybuf (c : DWord) : (issueHmac c s).keybuf = s.keybuf := rfl
@[simp] theorem issueHmac_eng (c : DWord) : (issueHmac c s).eng = .wait := rfl
@[simp] theorem issueHmac_pcmd (c : DWord) : (issueHmac c s).pcmd = s.pcmd := rfl
@[simp] theorem issueHmac_clatch (c : DWord) : (issueHmac c s).clatch = c := rfl
@[simp] theorem issueHmac_req (c : DWord) : (issueHmac c s).req = some { key := s.keyBytes, msg := be8 c } := rfl
@[simp] theorem issueHmac_bus (c : DWord) : (issueHmac c s).bus = s.bus := rfl
@[simp] theorem issueHmac_host (c : DWord) : (issueHmac c s).host = s.host := rfl
@[simp] theorem issueHmac_sched (c : DWord) : (issueHmac c s).sched = s.sched := rfl
@[simp] theorem issueHmac_draws (c : DWord) : (issueHmac c s).draws = s.draws := rfl

/-! ## eraseWorkingCopies -/

@[simp] theorem eraseWorkingCopies_irqEn : (eraseWorkingCopies s).irqEn = s.irqEn := rfl
@[simp] theorem eraseWorkingCopies_busy : (eraseWorkingCopies s).busy = s.busy := rfl
@[simp] theorem eraseWorkingCopies_done : (eraseWorkingCopies s).done = s.done := rfl
@[simp] theorem eraseWorkingCopies_ovr : (eraseWorkingCopies s).ovr = s.ovr := rfl
@[simp] theorem eraseWorkingCopies_scope : (eraseWorkingCopies s).scope = s.scope := rfl
@[simp] theorem eraseWorkingCopies_err : (eraseWorkingCopies s).err = s.err := rfl
@[simp] theorem eraseWorkingCopies_info : (eraseWorkingCopies s).info = s.info := rfl
@[simp] theorem eraseWorkingCopies_keylen : (eraseWorkingCopies s).keylen = s.keylen := rfl
@[simp] theorem eraseWorkingCopies_codelen : (eraseWorkingCopies s).codelen = s.codelen := rfl
@[simp] theorem eraseWorkingCopies_ts : (eraseWorkingCopies s).ts = s.ts := rfl
@[simp] theorem eraseWorkingCopies_t0 : (eraseWorkingCopies s).t0 = s.t0 := rfl
@[simp] theorem eraseWorkingCopies_stepSize : (eraseWorkingCopies s).stepSize = s.stepSize := rfl
@[simp] theorem eraseWorkingCopies_ctr : (eraseWorkingCopies s).ctr = s.ctr := rfl
@[simp] theorem eraseWorkingCopies_digest : (eraseWorkingCopies s).digest = Vector.replicate 20 0 := rfl
@[simp] theorem eraseWorkingCopies_bin : (eraseWorkingCopies s).bin = s.bin := rfl
@[simp] theorem eraseWorkingCopies_num : (eraseWorkingCopies s).num = s.num := rfl
@[simp] theorem eraseWorkingCopies_code : (eraseWorkingCopies s).code = s.code := rfl
@[simp] theorem eraseWorkingCopies_keybuf : (eraseWorkingCopies s).keybuf = s.keybuf := rfl
@[simp] theorem eraseWorkingCopies_eng : (eraseWorkingCopies s).eng = s.eng := rfl
@[simp] theorem eraseWorkingCopies_pcmd : (eraseWorkingCopies s).pcmd = s.pcmd := rfl
@[simp] theorem eraseWorkingCopies_clatch : (eraseWorkingCopies s).clatch = s.clatch := rfl
@[simp] theorem eraseWorkingCopies_req : (eraseWorkingCopies s).req = none := rfl
@[simp] theorem eraseWorkingCopies_bus : (eraseWorkingCopies s).bus = s.bus := rfl
@[simp] theorem eraseWorkingCopies_host : (eraseWorkingCopies s).host = s.host := rfl
@[simp] theorem eraseWorkingCopies_sched : (eraseWorkingCopies s).sched = s.sched := rfl
@[simp] theorem eraseWorkingCopies_draws : (eraseWorkingCopies s).draws = s.draws := rfl

/-! ## accept -/

@[simp] theorem accept_irqEn (w : Word) : (accept w s).irqEn = s.irqEn := rfl
@[simp] theorem accept_busy (w : Word) : (accept w s).busy = true := rfl
@[simp] theorem accept_done (w : Word) : (accept w s).done = false := rfl
@[simp] theorem accept_ovr (w : Word) : (accept w s).ovr = s.ovr := rfl
@[simp] theorem accept_scope (w : Word) : (accept w s).scope = s.scope := rfl
@[simp] theorem accept_err (w : Word) : (accept w s).err = 0 := rfl
@[simp] theorem accept_info (w : Word) : (accept w s).info = 0 := rfl
@[simp] theorem accept_keylen (w : Word) : (accept w s).keylen = s.keylen := rfl
@[simp] theorem accept_codelen (w : Word) : (accept w s).codelen = s.codelen := rfl
@[simp] theorem accept_ts (w : Word) : (accept w s).ts = s.ts := rfl
@[simp] theorem accept_t0 (w : Word) : (accept w s).t0 = s.t0 := rfl
@[simp] theorem accept_stepSize (w : Word) : (accept w s).stepSize = s.stepSize := rfl
@[simp] theorem accept_ctr (w : Word) : (accept w s).ctr = s.ctr := rfl
@[simp] theorem accept_digest (w : Word) : (accept w s).digest = s.digest := rfl
@[simp] theorem accept_bin (w : Word) : (accept w s).bin = s.bin := rfl
@[simp] theorem accept_num (w : Word) : (accept w s).num = s.num := rfl
@[simp] theorem accept_code (w : Word) : (accept w s).code = s.code := rfl
@[simp] theorem accept_keybuf (w : Word) : (accept w s).keybuf = s.keybuf := rfl
@[simp] theorem accept_eng (w : Word) : (accept w s).eng = .pend := rfl
@[simp] theorem accept_pcmd (w : Word) : (accept w s).pcmd = w := rfl
@[simp] theorem accept_clatch (w : Word) : (accept w s).clatch = s.clatch := rfl
@[simp] theorem accept_req (w : Word) : (accept w s).req = s.req := rfl
@[simp] theorem accept_bus (w : Word) : (accept w s).bus = s.bus := rfl
@[simp] theorem accept_host (w : Word) : (accept w s).host = s.host := rfl
@[simp] theorem accept_sched (w : Word) : (accept w s).sched = s.sched := rfl
@[simp] theorem accept_draws (w : Word) : (accept w s).draws = s.draws := rfl

/-! ## codeFromDigest -/

@[simp] theorem codeFromDigest_irqEn (dg : Vector Byte 20) (d : Nat) : (codeFromDigest dg d s).irqEn = s.irqEn := rfl
@[simp] theorem codeFromDigest_busy (dg : Vector Byte 20) (d : Nat) : (codeFromDigest dg d s).busy = s.busy := rfl
@[simp] theorem codeFromDigest_done (dg : Vector Byte 20) (d : Nat) : (codeFromDigest dg d s).done = s.done := rfl
@[simp] theorem codeFromDigest_ovr (dg : Vector Byte 20) (d : Nat) : (codeFromDigest dg d s).ovr = s.ovr := rfl
@[simp] theorem codeFromDigest_scope (dg : Vector Byte 20) (d : Nat) : (codeFromDigest dg d s).scope = s.scope := rfl
@[simp] theorem codeFromDigest_err (dg : Vector Byte 20) (d : Nat) : (codeFromDigest dg d s).err = s.err := rfl
@[simp] theorem codeFromDigest_info (dg : Vector Byte 20) (d : Nat) : (codeFromDigest dg d s).info = s.info := rfl
@[simp] theorem codeFromDigest_keylen (dg : Vector Byte 20) (d : Nat) : (codeFromDigest dg d s).keylen = s.keylen := rfl
@[simp] theorem codeFromDigest_codelen (dg : Vector Byte 20) (d : Nat) : (codeFromDigest dg d s).codelen = BitVec.ofNat 4 d := rfl
@[simp] theorem codeFromDigest_ts (dg : Vector Byte 20) (d : Nat) : (codeFromDigest dg d s).ts = s.ts := rfl
@[simp] theorem codeFromDigest_t0 (dg : Vector Byte 20) (d : Nat) : (codeFromDigest dg d s).t0 = s.t0 := rfl
@[simp] theorem codeFromDigest_stepSize (dg : Vector Byte 20) (d : Nat) : (codeFromDigest dg d s).stepSize = s.stepSize := rfl
@[simp] theorem codeFromDigest_ctr (dg : Vector Byte 20) (d : Nat) : (codeFromDigest dg d s).ctr = s.ctr := rfl
@[simp] theorem codeFromDigest_digest (dg : Vector Byte 20) (d : Nat) : (codeFromDigest dg d s).digest = s.digest := rfl
@[simp] theorem codeFromDigest_bin (dg : Vector Byte 20) (d : Nat) : (codeFromDigest dg d s).bin = dynTruncate dg := rfl
@[simp] theorem codeFromDigest_num (dg : Vector Byte 20) (d : Nat) : (codeFromDigest dg d s).num = reduceDigits (dynTruncate dg) d := rfl
@[simp] theorem codeFromDigest_code (dg : Vector Byte 20) (d : Nat) : (codeFromDigest dg d s).code = codeBytes (reduceDigits (dynTruncate dg) d).toNat d := rfl
@[simp] theorem codeFromDigest_keybuf (dg : Vector Byte 20) (d : Nat) : (codeFromDigest dg d s).keybuf = s.keybuf := rfl
@[simp] theorem codeFromDigest_eng (dg : Vector Byte 20) (d : Nat) : (codeFromDigest dg d s).eng = s.eng := rfl
@[simp] theorem codeFromDigest_pcmd (dg : Vector Byte 20) (d : Nat) : (codeFromDigest dg d s).pcmd = s.pcmd := rfl
@[simp] theorem codeFromDigest_clatch (dg : Vector Byte 20) (d : Nat) : (codeFromDigest dg d s).clatch = s.clatch := rfl
@[simp] theorem codeFromDigest_req (dg : Vector Byte 20) (d : Nat) : (codeFromDigest dg d s).req = s.req := rfl
@[simp] theorem codeFromDigest_bus (dg : Vector Byte 20) (d : Nat) : (codeFromDigest dg d s).bus = s.bus := rfl
@[simp] theorem codeFromDigest_host (dg : Vector Byte 20) (d : Nat) : (codeFromDigest dg d s).host = s.host := rfl
@[simp] theorem codeFromDigest_sched (dg : Vector Byte 20) (d : Nat) : (codeFromDigest dg d s).sched = s.sched := rfl
@[simp] theorem codeFromDigest_draws (dg : Vector Byte 20) (d : Nat) : (codeFromDigest dg d s).draws = s.draws := rfl

/-! ## finish -/

@[simp] theorem finish_irqEn (h z : Bool) (e : BitVec 4) (i : BitVec 8) : (finish h z e i s).irqEn = s.irqEn := by cases h <;> cases z <;> rfl
@[simp] theorem finish_busy (h z : Bool) (e : BitVec 4) (i : BitVec 8) : (finish h z e i s).busy = false := by cases h <;> cases z <;> rfl
@[simp] theorem finish_done (h z : Bool) (e : BitVec 4) (i : BitVec 8) : (finish h z e i s).done = true := by cases h <;> cases z <;> rfl
@[simp] theorem finish_ovr (h z : Bool) (e : BitVec 4) (i : BitVec 8) : (finish h z e i s).ovr = s.ovr := by cases h <;> cases z <;> rfl
@[simp] theorem finish_scope (h z : Bool) (e : BitVec 4) (i : BitVec 8) : (finish h z e i s).scope = if z then false else s.scope := by cases h <;> cases z <;> rfl
@[simp] theorem finish_err (h z : Bool) (e : BitVec 4) (i : BitVec 8) : (finish h z e i s).err = e := by cases h <;> cases z <;> rfl
@[simp] theorem finish_info (h z : Bool) (e : BitVec 4) (i : BitVec 8) : (finish h z e i s).info = i := by cases h <;> cases z <;> rfl
@[simp] theorem finish_keylen (h z : Bool) (e : BitVec 4) (i : BitVec 8) : (finish h z e i s).keylen = if z then 0 else s.keylen := by cases h <;> cases z <;> rfl
@[simp] theorem finish_codelen (h z : Bool) (e : BitVec 4) (i : BitVec 8) : (finish h z e i s).codelen = s.codelen := by cases h <;> cases z <;> rfl
@[simp] theorem finish_ts (h z : Bool) (e : BitVec 4) (i : BitVec 8) : (finish h z e i s).ts = s.ts := by cases h <;> cases z <;> rfl
@[simp] theorem finish_t0 (h z : Bool) (e : BitVec 4) (i : BitVec 8) : (finish h z e i s).t0 = s.t0 := by cases h <;> cases z <;> rfl
@[simp] theorem finish_stepSize (h z : Bool) (e : BitVec 4) (i : BitVec 8) : (finish h z e i s).stepSize = s.stepSize := by cases h <;> cases z <;> rfl
@[simp] theorem finish_ctr (h z : Bool) (e : BitVec 4) (i : BitVec 8) : (finish h z e i s).ctr = s.ctr := by cases h <;> cases z <;> rfl
@[simp] theorem finish_digest (h z : Bool) (e : BitVec 4) (i : BitVec 8) : (finish h z e i s).digest = if h then Vector.replicate 20 0 else s.digest := by cases h <;> cases z <;> rfl
@[simp] theorem finish_bin (h z : Bool) (e : BitVec 4) (i : BitVec 8) : (finish h z e i s).bin = s.bin := by cases h <;> cases z <;> rfl
@[simp] theorem finish_num (h z : Bool) (e : BitVec 4) (i : BitVec 8) : (finish h z e i s).num = s.num := by cases h <;> cases z <;> rfl
@[simp] theorem finish_code (h z : Bool) (e : BitVec 4) (i : BitVec 8) : (finish h z e i s).code = s.code := by cases h <;> cases z <;> rfl
@[simp] theorem finish_keybuf (h z : Bool) (e : BitVec 4) (i : BitVec 8) : (finish h z e i s).keybuf = if z then Vector.replicate Config.keyMax 0 else s.keybuf := by cases h <;> cases z <;> rfl
@[simp] theorem finish_eng (h z : Bool) (e : BitVec 4) (i : BitVec 8) : (finish h z e i s).eng = .idle := by cases h <;> cases z <;> rfl
@[simp] theorem finish_pcmd (h z : Bool) (e : BitVec 4) (i : BitVec 8) : (finish h z e i s).pcmd = 0 := by cases h <;> cases z <;> rfl
@[simp] theorem finish_clatch (h z : Bool) (e : BitVec 4) (i : BitVec 8) : (finish h z e i s).clatch = 0 := by cases h <;> cases z <;> rfl
@[simp] theorem finish_req (h z : Bool) (e : BitVec 4) (i : BitVec 8) : (finish h z e i s).req = if h then none else s.req := by cases h <;> cases z <;> rfl
@[simp] theorem finish_bus (h z : Bool) (e : BitVec 4) (i : BitVec 8) : (finish h z e i s).bus = s.bus := by cases h <;> cases z <;> rfl
@[simp] theorem finish_host (h z : Bool) (e : BitVec 4) (i : BitVec 8) : (finish h z e i s).host = s.host := by cases h <;> cases z <;> rfl
@[simp] theorem finish_sched (h z : Bool) (e : BitVec 4) (i : BitVec 8) : (finish h z e i s).sched = s.sched := by cases h <;> cases z <;> rfl
@[simp] theorem finish_draws (h z : Bool) (e : BitVec 4) (i : BitVec 8) : (finish h z e i s).draws = s.draws := by cases h <;> cases z <;> rfl

/-! ## complete, raise and raiseNoCode are finish -/

theorem complete_eq_finish (h z : Bool) : complete h z s = finish h z 0 0 s := rfl

theorem raise_eq_finish (h z : Bool) (e : CmdError) : raise h z e s = finish h z e.errCode e.infoCode s := rfl

theorem raiseNoCode_eq_finish (h z : Bool) (e : CmdError) :
    raiseNoCode h z e s = finish h z e.errCode e.infoCode (invalidateCode s) := rfl

theorem rejectIllegal_eq_finish (e : Illegal) :
    rejectIllegal e s = finish false (zField s.pcmd) (illegalError e).errCode (illegalError e).infoCode s := rfl

/-! ## Two states with the same fields -/

theorem State.ext_fields {s t : State}
    (h : s.irqEn = t.irqEn ∧ s.busy = t.busy ∧ s.done = t.done ∧ s.ovr = t.ovr ∧ s.scope = t.scope ∧ s.err = t.err ∧ s.info = t.info ∧ s.keylen = t.keylen ∧ s.codelen = t.codelen ∧ s.ts = t.ts ∧ s.t0 = t.t0 ∧ s.stepSize = t.stepSize ∧ s.ctr = t.ctr ∧ s.digest = t.digest ∧ s.bin = t.bin ∧ s.num = t.num ∧ s.code = t.code ∧ s.keybuf = t.keybuf ∧ s.eng = t.eng ∧ s.pcmd = t.pcmd ∧ s.clatch = t.clatch ∧ s.req = t.req ∧ s.bus = t.bus ∧ s.host = t.host ∧ s.sched = t.sched ∧ s.draws = t.draws) : s = t := by
  obtain ⟨h0, h1, h2, h3, h4, h5, h6, h7, h8, h9, h10, h11, h12, h13, h14, h15, h16, h17, h18, h19, h20, h21, h22, h23, h24, h25⟩ := h
  cases s; cases t
  simp only at *
  subst h0 h1 h2 h3 h4 h5 h6 h7 h8 h9 h10 h11 h12 h13 h14 h15 h16 h17 h18 h19 h20 h21 h22 h23 h24 h25
  rfl

/-- `finish` as one record: what it writes and that it writes nothing else. -/
theorem finish_record (h z : Bool) (e : BitVec 4) (i : BitVec 8) :
    finish h z e i s =
      { s with
        err := e, info := i, clatch := 0, pcmd := 0, eng := .idle, busy := false, done := true,
        digest := bif h then Vector.replicate 20 0 else s.digest,
        req := bif h then none else s.req,
        keybuf := bif z then Vector.replicate Config.keyMax 0 else s.keybuf,
        keylen := bif z then 0 else s.keylen,
        scope := bif z then false else s.scope } := by
  cases h <;> cases z <;> rfl

end Sys2Proof.Machine
end

