-- ==== Sys2Proof/Laws/Window.lean ====
section
/-! SUPPORT. The register map and what a host access can do (10_state.md R21, 20_memory.md R63 to R68). -/

namespace Sys2Proof.Machine

theorem mem_allRegs (r : Reg) : r ∈ allRegs := by cases r <;> decide

/-- The map finds each register at its own offset. -/
@[simp] theorem regAtOffset_off (r : Reg) : regAtOffset r.off = some r := by cases r <;> rfl

/-- What the map finds at an offset lies at that offset. -/
theorem off_of_regAtOffset {off : Nat} {r : Reg} (h : regAtOffset off = some r) : r.off = off := by
  have := List.find?_some h
  simpa using this

/-- The map finds nothing at an offset that is no register's. -/
theorem regAtOffset_none {off : Nat} (h : ∀ r : Reg, r.off ≠ off) : regAtOffset off = none := by
  rw [regAtOffset, List.find?_eq_none]
  intro r _
  simpa using h r

/-- An aligned 32-bit access at a register's address reaches it. -/
@[simp] theorem regAt_base_off (r : Reg) : regAt (Config.base + r.off) 4 = some r := by
  have : ¬ (4 ≠ 4 ∨ Config.base + r.off < Config.base) := by omega
  rw [regAt, if_neg this, Nat.add_sub_cancel_left]
  exact regAtOffset_off r

/-- An access inside the window is decided by its size and offset. -/
theorem regAt_base (off size : Nat) : regAt (Config.base + off) size = if size = 4 then regAtOffset off else none := by
  by_cases h : size = 4
  · have : ¬ (size ≠ 4 ∨ Config.base + off < Config.base) := by omega
    rw [regAt, if_neg this, Nat.add_sub_cancel_left, if_pos h]
  · rw [regAt, if_pos (Or.inl h), if_neg h]

/-- Everything a host write can do (R64). -/
theorem writeReg_cases (r : Reg) (v : Word) (s : State) :
    (r = .ctrl ∧ writeReg r v s = writeCtrl v s) ∨
    (r = .status ∧ writeReg r v s = writeStatus v s) ∨
    (r ≠ .ctrl ∧ r ≠ .status ∧ s.busy = true ∧ writeReg r v s = { s with ovr := true }) ∨
    (r ≠ .ctrl ∧ r ≠ .status ∧ s.busy = false ∧ writeReg r v s = writeIdle r v s) := by
  by_cases h1 : r = .ctrl
  · exact .inl ⟨h1, by rw [writeReg, if_pos h1]⟩
  by_cases h2 : r = .status
  · exact .inr (.inl ⟨h2, by rw [writeReg, if_neg h1, if_pos h2]⟩)
  by_cases hb : s.busy = true
  · exact .inr (.inr (.inl ⟨h1, h2, hb, by rw [writeReg, if_neg h1, if_neg h2, if_pos hb]⟩))
  · exact .inr (.inr (.inr ⟨h1, h2, by simpa using hb, by rw [writeReg, if_neg h1, if_neg h2, if_neg hb]⟩))

/-- Everything a host write can do while BUSY = 0: accept a command, or change an operand register, or nothing (R64). -/
theorem writeIdle_cases (r : Reg) (v : Word) (s : State) :
    (r = .cmd ∧ writeIdle r v s = accept v s) ∨
    (r ≠ .cmd ∧ ∃ ts t0 stepSize ctr digest, writeIdle r v s =
      { s with ts := ts, t0 := t0, stepSize := stepSize, ctr := ctr, digest := digest }) := by
  by_cases h : r = .cmd
  · subst h; exact .inl ⟨rfl, rfl⟩
  · refine .inr ⟨h, ?_⟩
    cases r <;> first | exact absurd rfl h | exact ⟨_, _, _, _, _, rfl⟩

/-- A host write never touches the key, the code, the results or the agents outside (R43, R64). -/
theorem writeReg_record (r : Reg) (v : Word) (s : State) :
    ∃ irqEn busy done ovr err info ts t0 stepSize ctr digest eng pcmd, writeReg r v s =
      { s with irqEn := irqEn, busy := busy, done := done, ovr := ovr, err := err, info := info, ts := ts, t0 := t0,
               stepSize := stepSize, ctr := ctr, digest := digest, eng := eng, pcmd := pcmd } := by
  rcases writeReg_cases r v s with ⟨-, h⟩ | ⟨-, h⟩ | ⟨-, -, -, h⟩ | ⟨-, -, -, h⟩
  · exact ⟨_, _, _, _, _, _, _, _, _, _, _, _, _, h⟩
  · exact ⟨_, _, _, _, _, _, _, _, _, _, _, _, _, h⟩
  · exact ⟨_, _, _, _, _, _, _, _, _, _, _, _, _, h⟩
  · rcases writeIdle_cases r v s with ⟨-, hw⟩ | ⟨-, _, _, _, _, _, hw⟩
    · exact ⟨_, _, _, _, _, _, _, _, _, _, _, _, _, h.trans hw⟩
    · exact ⟨_, _, _, _, _, _, _, _, _, _, _, _, _, h.trans hw⟩

@[simp] theorem writeReg_keybuf (r : Reg) (v : Word) (s : State) : (writeReg r v s).keybuf = s.keybuf := by
  obtain ⟨_, _, _, _, _, _, _, _, _, _, _, _, _, h⟩ := writeReg_record r v s
  rw [h]

@[simp] theorem writeReg_keylen (r : Reg) (v : Word) (s : State) : (writeReg r v s).keylen = s.keylen := by
  obtain ⟨_, _, _, _, _, _, _, _, _, _, _, _, _, h⟩ := writeReg_record r v s
  rw [h]

@[simp] theorem writeReg_scope (r : Reg) (v : Word) (s : State) : (writeReg r v s).scope = s.scope := by
  obtain ⟨_, _, _, _, _, _, _, _, _, _, _, _, _, h⟩ := writeReg_record r v s
  rw [h]

@[simp] theorem writeReg_bin (r : Reg) (v : Word) (s : State) : (writeReg r v s).bin = s.bin := by
  obtain ⟨_, _, _, _, _, _, _, _, _, _, _, _, _, h⟩ := writeReg_record r v s
  rw [h]

@[simp] theorem writeReg_num (r : Reg) (v : Word) (s : State) : (writeReg r v s).num = s.num := by
  obtain ⟨_, _, _, _, _, _, _, _, _, _, _, _, _, h⟩ := writeReg_record r v s
  rw [h]

@[simp] theorem writeReg_code (r : Reg) (v : Word) (s : State) : (writeReg r v s).code = s.code := by
  obtain ⟨_, _, _, _, _, _, _, _, _, _, _, _, _, h⟩ := writeReg_record r v s
  rw [h]

@[simp] theorem writeReg_codelen (r : Reg) (v : Word) (s : State) : (writeReg r v s).codelen = s.codelen := by
  obtain ⟨_, _, _, _, _, _, _, _, _, _, _, _, _, h⟩ := writeReg_record r v s
  rw [h]

@[simp] theorem writeReg_clatch (r : Reg) (v : Word) (s : State) : (writeReg r v s).clatch = s.clatch := by
  obtain ⟨_, _, _, _, _, _, _, _, _, _, _, _, _, h⟩ := writeReg_record r v s
  rw [h]

@[simp] theorem writeReg_req (r : Reg) (v : Word) (s : State) : (writeReg r v s).req = s.req := by
  obtain ⟨_, _, _, _, _, _, _, _, _, _, _, _, _, h⟩ := writeReg_record r v s
  rw [h]

@[simp] theorem writeReg_bus (r : Reg) (v : Word) (s : State) : (writeReg r v s).bus = s.bus := by
  obtain ⟨_, _, _, _, _, _, _, _, _, _, _, _, _, h⟩ := writeReg_record r v s
  rw [h]

@[simp] theorem writeReg_host (r : Reg) (v : Word) (s : State) : (writeReg r v s).host = s.host := by
  obtain ⟨_, _, _, _, _, _, _, _, _, _, _, _, _, h⟩ := writeReg_record r v s
  rw [h]

@[simp] theorem writeReg_sched (r : Reg) (v : Word) (s : State) : (writeReg r v s).sched = s.sched := by
  obtain ⟨_, _, _, _, _, _, _, _, _, _, _, _, _, h⟩ := writeReg_record r v s
  rw [h]

@[simp] theorem writeReg_draws (r : Reg) (v : Word) (s : State) : (writeReg r v s).draws = s.draws := by
  obtain ⟨_, _, _, _, _, _, _, _, _, _, _, _, _, h⟩ := writeReg_record r v s
  rw [h]

/-! ## Registers in integers -/

/-- A field of a word in integers (R7). -/
theorem field_toNat {n : Nat} (w : BitVec n) (lo len : Nat) :
    (w.extractLsb' lo len).toNat = w.toNat / 2 ^ lo % 2 ^ len := by
  rw [BitVec.extractLsb'_toNat, Nat.shiftRight_eq_div_pow]

/-- A bit of a word in integers (R7). -/
theorem bit_eq_div {n : Nat} (w : BitVec n) (k : Nat) : w.getLsbD k = decide (w.toNat / 2 ^ k % 2 = 1) := by
  rw [← BitVec.testBit_toNat, Nat.testBit_eq_decide_div_mod_eq]

/-- STATUS in integers (R25). -/
theorem statusWord_toNat (s : State) : (statusWord s).toNat =
    s.busy.toNat + 2 * s.done.toNat + 4 * s.ovr.toNat + 8 * s.scope.toNat + 2 ^ 8 * s.err.toNat +
      2 ^ 16 * s.info.toNat := by
  unfold statusWord
  rw [append_toNat, append_toNat, append_toNat, append_toNat, append_toNat, append_toNat, append_toNat, append_toNat]
  simp
  omega

theorem loHalf_toNat (v : DWord) : (loHalf v).toNat = v.toNat % 2 ^ 32 := by
  simp [loHalf]

theorem hiHalf_toNat (v : DWord) : (hiHalf v).toNat = v.toNat / 2 ^ 32 := by
  have := v.isLt
  rw [hiHalf, field_toNat]
  omega

theorem withLoHalf_toNat (v : DWord) (w : Word) : (withLoHalf v w).toNat = v.toNat / 2 ^ 32 * 2 ^ 32 + w.toNat := by
  rw [withLoHalf, append_toNat, hiHalf_toNat]

theorem withHiHalf_toNat (v : DWord) (w : Word) : (withHiHalf v w).toNat = w.toNat * 2 ^ 32 + v.toNat % 2 ^ 32 := by
  rw [withHiHalf, append_toNat, loHalf_toNat]

/-- CODEk in integers (R42). -/
theorem codeWord_toNat (cs : Vector Byte 12) (k : Fin 3) : (codeWord cs k).toNat =
    (cs[4 * k.val]).toNat + 2 ^ 8 * (cs[4 * k.val + 1]).toNat + 2 ^ 16 * (cs[4 * k.val + 2]).toNat +
      2 ^ 24 * (cs[4 * k.val + 3]).toNat := by
  rw [codeWord, append_toNat, append_toNat, append_toNat]
  omega

@[simp] theorem withDigestWord_getElem (dg : Vector Byte 20) (k : Nat) (v : Word) (i : Nat) (h : i < 20) :
    (withDigestWord dg k v)[i] = if i / 4 = k then v.extractLsb' (8 * (i % 4)) 8 else dg[i] := by
  simp [withDigestWord]

end Sys2Proof.Machine
end

