-- ==== Sys2Proof/Laws/Inv.lean ====
section
/-! SUPPORT. What each operation does to the invariants of 10_state.md R49: the part about data, the completion procedure,
accept, the host's writes and the commands. -/

namespace Sys2Proof.Machine

/-- The part of the invariants about the key, the results and the code: R33, R49 (a), (b), (e), (f). -/
structure DataInv (s : State) : Prop where
  closed : s.scope = false → s.keylen = 0 ∧ s.keybuf = Vector.replicate Config.keyMax 0
  past : ∀ i : Fin Config.keyMax, s.keylen.toNat ≤ i.val → s.keybuf[i.val] = 0
  le : s.keylen.toNat ≤ Config.keyMax
  bin : s.bin.toNat < 2 ^ 31
  num : s.num.toNat < 2 ^ 31
  codelen : s.codelen.toNat = 0 ∨ s.codelen.toNat ∈ digitSet
  code : CodeShape s.code s.codelen.toNat

theorem Inv.data {s : State} (h : Inv s) : DataInv s :=
  ⟨h.closed_scope_holds_no_key, h.zero_past_keylen, h.keylen_le, h.bin_lt, h.num_lt, h.codelen_mem, h.code_shape⟩

/-- A pair of codes that R172's table has, or no error. -/
def GoodPair (e : BitVec 4) (i : BitVec 8) : Prop :=
  (e = 0 ∧ i = 0) ∨ ∃ c ∈ allCmdErrors, e = c.errCode ∧ i = c.infoCode

theorem goodPair_zero : GoodPair 0 0 := .inl ⟨rfl, rfl⟩

theorem goodPair_error (c : CmdError) : GoodPair c.errCode c.infoCode :=
  .inr ⟨c, by cases c <;> decide, rfl, rfl⟩

/-- An error code is never 0 (R171). -/
theorem errCode_ne_zero (c : CmdError) : c.errCode ≠ 0 := by cases c <;> decide

theorem GoodPair.info_zero {e : BitVec 4} {i : BitVec 8} (h : GoodPair e i) (h0 : e = 0) : i = 0 := by
  rcases h with ⟨-, h⟩ | ⟨c, -, h, -⟩
  · exact h
  · exact absurd (h.symm.trans h0) (errCode_ne_zero c)

/-! ## Data -/

theorem zeroizeScope_data {s : State} (h : DataInv s) : DataInv (zeroizeScope s) where
  closed := fun _ => ⟨rfl, rfl⟩
  past := fun i _ => by simp
  le := by simp
  bin := h.bin
  num := h.num
  codelen := h.codelen
  code := h.code

theorem invalidateCode_data {s : State} (h : DataInv s) : DataInv (invalidateCode s) where
  closed := h.closed
  past := h.past
  le := h.le
  bin := h.bin
  num := h.num
  codelen := .inl rfl
  code := noCode_shape

theorem writeCode_data {s : State} (n : Word) {d : Nat} (hd : validDigits d = true) (h : DataInv s) :
    DataInv (writeCode n d s) where
  closed := h.closed
  past := h.past
  le := h.le
  bin := h.bin
  num := h.num
  codelen := .inr (by rw [writeCode_codelen, codelen_toNat hd]; exact mem_digitSet_of_valid hd)
  code := by rw [writeCode_codelen, codelen_toNat hd]; exact codeBytes_shape n.toNat d

/-- Results below 2^31 keep the data invariants (R40, R41). -/
theorem results_data {s : State} (b n : Word) (hb : b.toNat < 2 ^ 31) (hn : n.toNat < 2 ^ 31) (h : DataInv s) :
    DataInv { s with bin := b, num := n } :=
  ⟨h.closed, h.past, h.le, hb, hn, h.codelen, h.code⟩

/-- The operand registers and the digest are no part of the data invariants. -/
theorem operands_data {s : State} (ts t0 step ctr : DWord) (dg : Vector Byte 20) (h : DataInv s) :
    DataInv { s with ts := ts, t0 := t0, stepSize := step, ctr := ctr, digest := dg } :=
  ⟨h.closed, h.past, h.le, h.bin, h.num, h.codelen, h.code⟩

theorem codeFromDigest_data {s : State} (dg : Vector Byte 20) {d : Nat} (hd : validDigits d = true) (h : DataInv s) :
    DataInv (codeFromDigest dg d s) :=
  writeCode_data _ hd (results_data _ _ (dynTruncate_lt dg)
    (lt_of_le_of_lt (reduceDigits_le _ _) (dynTruncate_lt dg)) h)

/-- R152: the open, empty scope. -/
theorem kopen_data {s : State} (h : DataInv s) :
    DataInv { s with keybuf := Vector.replicate Config.keyMax 0, keylen := 0, scope := true } where
  closed := fun hs => by cases hs
  past := fun i _ => by simp
  le := by simp
  bin := h.bin
  num := h.num
  codelen := h.codelen
  code := h.code

/-- R153: one more key byte in an open scope that is not full. -/
theorem kpush_data {s : State} (kb : Byte) (ho : s.scope = true) (hf : s.keylen.toNat ≠ Config.keyMax)
    (h : DataInv s) :
    DataInv { s with keybuf := s.keybuf.setIfInBounds s.keylen.toNat kb, keylen := s.keylen + 1 } := by
  have hle := h.le
  have hlen : (s.keylen + 1).toNat = s.keylen.toNat + 1 := by
    rw [BitVec.toNat_add]
    have : Config.keyMax = 64 := rfl
    exact Nat.mod_eq_of_lt (by simp at hle ⊢; omega)
  exact
    { closed := fun hs => by simp [ho] at hs
      past := fun i hi => by
        rw [hlen] at hi
        simp only [Vector.getElem_setIfInBounds]
        rw [if_neg (by omega)]
        exact h.past i (by omega)
      le := by rw [hlen]; omega
      bin := h.bin
      num := h.num
      codelen := h.codelen
      code := h.code }

/-! ## Completion, accept, and what stands outside the block -/

/-- The completion procedure reaches a state that meets the invariants (R176). -/
theorem finish_inv {s : State} (h z : Bool) {e : BitVec 4} {i : BitVec 8} (hp : GoodPair e i) (hd : DataInv s)
    (hr : h = true ∨ s.req = none) : Inv (finish h z e i s) := by
  have hreq : (finish h z e i s).req = none := by
    rcases hr with rfl | hr
    · simp
    · cases h <;> simp [hr]
  have hdata : DataInv (finish h z e i s) := by
    cases z
    · have : finish h false e i s =
          { s with err := e, info := i, clatch := 0, pcmd := 0, eng := .idle, busy := false, done := true,
                   digest := (finish h false e i s).digest, req := (finish h false e i s).req } := by
        cases h <;> rfl
      rw [this]
      exact ⟨hd.closed, hd.past, hd.le, hd.bin, hd.num, hd.codelen, hd.code⟩
    · have : finish h true e i s =
          { zeroizeScope s with err := e, info := i, clatch := 0, pcmd := 0, eng := .idle, busy := false, done := true,
                                digest := (finish h true e i s).digest, req := (finish h true e i s).req } := by
        cases h <;> rfl
      have hz := zeroizeScope_data hd
      rw [this]
      exact ⟨hz.closed, hz.past, hz.le, hz.bin, hz.num, hz.codelen, hz.code⟩
  exact
    { closed_scope_holds_no_key := hdata.closed
      zero_past_keylen := hdata.past
      keylen_le := hdata.le
      busy_iff := by simp
      req_iff := by rw [hreq]; simp
      bin_lt := hdata.bin
      num_lt := hdata.num
      codelen_mem := hdata.codelen
      code_shape := hdata.code
      info_of_no_error := by simpa using hp.info_zero
      error_pair := by
        rcases hp with ⟨he, -⟩ | hp
        · exact .inl (by simp [he])
        · exact .inr (by simpa using hp)
      clatch_zero := by simp
      pcmd_idle := by simp
      clear_while_busy := by simp
      waiting := by simp
      request := fun r h => by rw [hreq] at h; cases h }

/-- Accepting a command while no command runs keeps the invariants (R177). -/
theorem accept_inv {s : State} (w : Word) (h : Inv s) (hb : s.busy = false) : Inv (accept w s) := by
  have hidle : s.eng = .idle := by
    by_contra hne
    have := h.busy_iff.mpr hne
    simp [hb] at this
  have hreq : s.req = none := by
    have := h.req_iff
    simpa [hidle] using this
  exact
    { closed_scope_holds_no_key := h.closed_scope_holds_no_key
      zero_past_keylen := h.zero_past_keylen
      keylen_le := h.keylen_le
      busy_iff := by simp
      req_iff := by simp [hreq]
      bin_lt := h.bin_lt
      num_lt := h.num_lt
      codelen_mem := h.codelen_mem
      code_shape := h.code_shape
      info_of_no_error := by simp
      error_pair := .inl rfl
      clatch_zero := fun _ => h.clatch_zero (by simp [hidle])
      pcmd_idle := by simp
      clear_while_busy := by simp
      waiting := by simp
      request := by simp [hreq] }

/-- What stands outside the block is no part of the invariants. -/
theorem outside_inv {s : State} (bus : BusResponse) (host : HostAgent) (sched : List Turn) (draws : Nat) (h : Inv s) :
    Inv { s with bus := bus, host := host, sched := sched, draws := draws } :=
  ⟨h.1, h.2, h.3, h.4, h.5, h.6, h.7, h.8, h.9, h.10, h.11, h.12, h.13, h.14, h.15, h.16⟩

/-- A host write of operand registers, CTRL or OVR keeps the invariants. -/
theorem writeOperands_inv {s : State} (irqEn ovr : Bool) (ts t0 step ctr : DWord) (dg : Vector Byte 20) (h : Inv s) :
    Inv { s with irqEn := irqEn, ovr := ovr, ts := ts, t0 := t0, stepSize := step, ctr := ctr, digest := dg } :=
  ⟨h.1, h.2, h.3, h.4, h.5, h.6, h.7, h.8, h.9, h.10, h.11, h.12, h.13, h.14, h.15, h.16⟩

/-- A write to STATUS keeps the invariants. -/
theorem writeStatus_inv {s : State} (v : Word) (h : Inv s) : Inv (writeStatus v s) :=
  ⟨h.1, h.2, h.3, h.4, h.5, h.6, h.7, h.8, h.9, h.10, h.11, h.12, h.13,
    fun hb => by obtain ⟨hd, he, hi⟩ := h.14 hb; exact ⟨by simp [writeStatus, hd], he, hi⟩, h.15, h.16⟩

/-- Every host write keeps the invariants (R64). -/
theorem writeReg_inv {s : State} (r : Reg) (v : Word) (h : Inv s) : Inv (writeReg r v s) := by
  rcases writeReg_cases r v s with ⟨-, hw⟩ | ⟨-, hw⟩ | ⟨-, -, -, hw⟩ | ⟨-, -, hb, hw⟩ <;> rw [hw]
  · exact writeOperands_inv _ _ _ _ _ _ _ h
  · exact writeStatus_inv v h
  · exact writeOperands_inv _ _ _ _ _ _ _ h
  · rcases writeIdle_cases r v s with ⟨-, hi⟩ | ⟨-, _, _, _, _, _, hi⟩ <;> rw [hi]
    · exact accept_inv v h hb
    · exact writeOperands_inv _ _ _ _ _ _ _ h

theorem busAccess_inv {s : State} (a : Access) (h : Inv s) : Inv (busAccess a s) := by
  cases a with
  | read addr size => exact outside_inv _ _ _ _ h
  | write addr size v =>
    simp only [busAccess, busWrite]
    split
    · exact outside_inv _ _ _ _ h
    · exact outside_inv _ _ _ _ (writeReg_inv _ v h)

/-! ## Commands -/

/-- While a command is pending there is no request. -/
theorem Inv.no_request {s : State} (h : Inv s) (he : s.eng ≠ .wait) : s.req = none := by
  have := h.req_iff
  simpa [he] using this

/-- Issuing the request of the HOTP or TOTP in PCMD keeps the invariants (R131). -/
theorem issueHmac_inv {s : State} (c : DWord) (h : Inv s) (hp : s.eng = .pend) (hw : waitingCommand s.pcmd = true)
    (hk : s.keylen ≠ 0) : Inv (issueHmac c s) := by
  have hbusy : s.busy = true := h.busy_iff.mpr (by simp [hp])
  exact
    { closed_scope_holds_no_key := h.closed_scope_holds_no_key
      zero_past_keylen := h.zero_past_keylen
      keylen_le := h.keylen_le
      busy_iff := by simp [hbusy]
      req_iff := by simp
      bin_lt := h.bin_lt
      num_lt := h.num_lt
      codelen_mem := h.codelen_mem
      code_shape := h.code_shape
      info_of_no_error := h.info_of_no_error
      error_pair := h.error_pair
      clatch_zero := by simp
      pcmd_idle := by simp
      clear_while_busy := fun _ => h.clear_while_busy hbusy
      waiting := fun _ => hw
      request := fun r hr => by
        simp only [issueHmac_req, Option.some.injEq] at hr
        subst hr
        exact ⟨rfl, rfl, hk⟩ }

/-- Every command, run from PCMD, keeps the invariants. -/
theorem exec_inv {s t : State} {i : Instr} (h : Inv s) (hp : s.eng = .pend) (hi : decode s.pcmd = .ok i)
    (ht : exec i s = .next t) : Inv t := by
  have hr : s.req = none := h.no_request (by simp [hp])
  have hd := h.data
  cases i with
  | nop z =>
    cases ht
    exact finish_inv _ _ goodPair_zero hd (.inr hr)
  | derive z =>
    simp only [exec, execDerive] at ht
    split at ht <;> cases ht
    · exact finish_inv _ _ (goodPair_error _) hd (.inr hr)
    · exact finish_inv _ _ goodPair_zero (operands_data _ _ _ _ _ hd) (.inr hr)
  | trunc z =>
    cases ht
    exact finish_inv _ _ goodPair_zero (results_data _ _ (dynTruncate_lt _) hd.num hd) (.inr hr)
  | reduce d z =>
    simp only [exec, execReduce] at ht
    split at ht <;> cases ht
    · exact finish_inv _ _ goodPair_zero
        (results_data _ _ hd.bin (lt_of_le_of_lt (reduceDigits_le _ _) hd.bin) hd) (.inr hr)
    · exact finish_inv _ _ (goodPair_error _) hd (.inr hr)
  | format d z =>
    simp only [exec, execFormat] at ht
    split_ifs at ht with hv hn <;> cases ht
    · exact finish_inv _ _ (goodPair_error _) (invalidateCode_data hd) (.inr hr)
    · exact finish_inv _ _ goodPair_zero (writeCode_data _ hv hd) (.inr hr)
    · exact finish_inv _ _ (goodPair_error _) (invalidateCode_data hd) (.inr hr)
  | dtf d z =>
    simp only [exec, execDtf] at ht
    split_ifs at ht with hv <;> cases ht
    · exact finish_inv _ _ goodPair_zero (codeFromDigest_data _ hv hd) (.inr hr)
    · exact finish_inv _ _ (goodPair_error _) (invalidateCode_data hd) (.inr hr)
  | hotp d z =>
    simp only [exec, execHotp] at ht
    split_ifs at ht with hv hk <;> cases ht
    · exact finish_inv _ _ (goodPair_error _) (invalidateCode_data hd) (.inl rfl)
    · exact issueHmac_inv _ h hp (by simpa [waitingCommand, hi] using hv) hk
    · exact finish_inv _ _ (goodPair_error _) (invalidateCode_data hd) (.inl rfl)
  | totp d z =>
    simp only [exec, execTotp] at ht
    by_cases hv : validDigits d = true
    · rw [if_pos hv] at ht
      split at ht
      · cases ht
        exact finish_inv _ _ (goodPair_error _) (invalidateCode_data hd) (.inl rfl)
      · split_ifs at ht with hk <;> cases ht
        · exact finish_inv _ _ (goodPair_error _) (invalidateCode_data hd) (.inl rfl)
        · exact issueHmac_inv _ h hp (by simpa [waitingCommand, hi] using hv) hk
    · rw [if_neg hv] at ht
      cases ht
      exact finish_inv _ _ (goodPair_error _) (invalidateCode_data hd) (.inl rfl)
  | kopen z =>
    cases ht
    exact finish_inv _ _ goodPair_zero (kopen_data hd) (.inr hr)
  | kpush kb z =>
    simp only [exec, execKpush] at ht
    split_ifs at ht with ho hf <;> cases ht
    · exact finish_inv _ _ (goodPair_error _) hd (.inr hr)
    · exact finish_inv _ _ (goodPair_error _) hd (.inr hr)
    · exact finish_inv _ _ goodPair_zero (kpush_data kb (by simpa using ho) hf hd) (.inr hr)
  | kclose z =>
    cases ht
    exact finish_inv _ _ goodPair_zero (zeroizeScope_data hd) (.inr hr)
  | zall z =>
    cases ht
    have hz : DataInv (zeroizeScope s) := zeroizeScope_data hd
    have h1 := results_data 0 0 (by decide) (by decide) hz
    have h2 := operands_data 0 0 0 0 (Vector.replicate 20 0) (invalidateCode_data h1)
    exact finish_inv _ _ goodPair_zero h2 (.inr hr)

/-- An illegal command keeps the invariants (R89, R176). -/
theorem rejectIllegal_inv {s : State} (e : Illegal) (h : Inv s) (hp : s.eng = .pend) : Inv (rejectIllegal e s) :=
  finish_inv _ _ (goodPair_error _) h.data (.inr (h.no_request (by simp [hp])))

/-- The second phase of the waiting command keeps the invariants (R136, R141). -/
theorem respond_inv {s : State} (resp : HmacResponse) (h : Inv s) (hw : s.eng = .wait) : Inv (respond resp s) := by
  have hc := h.waiting hw
  unfold waitingCommand at hc
  unfold respond
  split <;> rename_i heq <;> rw [heq] at hc <;> dsimp only at hc <;> try cases hc
  · cases resp with
    | ok dg =>
      exact finish_inv _ _ goodPair_zero
        (codeFromDigest_data dg (by assumption) (operands_data s.ts s.t0 s.stepSize s.ctr dg h.data)) (.inl rfl)
    | fail => exact finish_inv _ _ (goodPair_error _) (invalidateCode_data h.data) (.inl rfl)
  · cases resp with
    | ok dg =>
      have h1 := codeFromDigest_data dg (by assumption) (operands_data s.ts s.t0 s.stepSize s.ctr dg h.data)
      exact finish_inv _ _ goodPair_zero (operands_data _ _ _ s.clatch _ h1) (.inl rfl)
    | fail => exact finish_inv _ _ (goodPair_error _) (invalidateCode_data h.data) (.inl rfl)

end Sys2Proof.Machine
end

