-- ==== Sys2Proof/Laws/PerInstr.lean ====
section
/-! SUPPORT. The families of statements made once per command. -/

namespace Sys2Proof.Laws

/-- EncodedFields: the word of a well-formed command has the command's fields, and its reserved fields are 0 (R86, R93). -/
def EncodedFields.Statement (i : Instr) : Prop :=
  i.wf = true →
    opField (encode i) = i.op ∧ (digField (encode i)).toNat = i.dig ∧ zField (encode i) = i.z ∧
      kbField (encode i) = i.kb ∧ rsv1Field (encode i) = 0 ∧ rsv2Field (encode i) = 0

theorem encodedFields_of (i : Instr) : EncodedFields.Statement i := by
  intro h
  have hd := Instr.dig_lt_of_wf h
  rw [encode_eq_wordOf hd]
  refine ⟨by simp, ?_, by simp, by simp, by simp, by simp⟩
  rw [digField_wordOf, BitVec.toNat_ofNat]
  exact Nat.mod_eq_of_lt hd

theorem EncodedFields.nop (z : Bool) : EncodedFields.Statement (.nop z) := encodedFields_of _
theorem EncodedFields.derive (z : Bool) : EncodedFields.Statement (.derive z) := encodedFields_of _
theorem EncodedFields.trunc (z : Bool) : EncodedFields.Statement (.trunc z) := encodedFields_of _
theorem EncodedFields.reduce (d : Nat) (z : Bool) : EncodedFields.Statement (.reduce d z) := encodedFields_of _
theorem EncodedFields.format (d : Nat) (z : Bool) : EncodedFields.Statement (.format d z) := encodedFields_of _
theorem EncodedFields.dtf (d : Nat) (z : Bool) : EncodedFields.Statement (.dtf d z) := encodedFields_of _
theorem EncodedFields.hotp (d : Nat) (z : Bool) : EncodedFields.Statement (.hotp d z) := encodedFields_of _
theorem EncodedFields.totp (d : Nat) (z : Bool) : EncodedFields.Statement (.totp d z) := encodedFields_of _
theorem EncodedFields.kopen (z : Bool) : EncodedFields.Statement (.kopen z) := encodedFields_of _
theorem EncodedFields.kpush (kb : Byte) (z : Bool) : EncodedFields.Statement (.kpush kb z) := encodedFields_of _
theorem EncodedFields.kclose (z : Bool) : EncodedFields.Statement (.kclose z) := encodedFields_of _
theorem EncodedFields.zall (z : Bool) : EncodedFields.Statement (.zall z) := encodedFields_of _

end Sys2Proof.Laws
end

