-- ==== Sys2Proof/Laws/Step.lean ====
section
/-! SUPPORT. What one step can do: one lemma per turn, one inversion lemma for the host's instructions and one for the
step (00_scope.md R12). -/

namespace Sys2Proof.Machine

/-- A step runs the schedule's first turn. -/
theorem step_cons {s : State} {t : Turn} {rest : List Turn} (h : s.sched = t :: rest) :
    step s = runTurn t { s with sched := rest } := by
  simp only [step, nextTurn, takeTurn, h]

/-- Past the schedule's end a step runs a free turn. -/
theorem step_nil {s : State} (h : s.sched = []) :
    step s = runTurn (Config.freeTurn s.draws) { s with draws := s.draws + 1 } := by
  simp only [step, nextTurn, takeTurn, h]

/-- Taking a turn changes the schedule or the count of free turns and nothing else. -/
theorem takeTurn_record (s : State) : ∃ sched draws, takeTurn s = { s with sched := sched, draws := draws } := by
  unfold takeTurn
  split
  · exact ⟨_, _, rfl⟩
  · exact ⟨_, _, rfl⟩

/-- The engine's turn with a pending command that decodes is `exec` of it. -/
theorem engineStep_ok {s : State} {i : Instr} (hp : s.eng = .pend) (hi : decode s.pcmd = .ok i) :
    engineStep s = exec i s := by
  simp only [engineStep, hp, runCommand, hi]

/-- The engine's turn with a pending word that is no command completes with IllegalCommand. -/
theorem engineStep_error {s : State} {e : Illegal} (hp : s.eng = .pend) (he : decode s.pcmd = .error e) :
    engineStep s = .next (rejectIllegal e s) := by
  simp only [engineStep, hp, runCommand, he]

/-- The engine has no step unless a command is pending. -/
theorem engineStep_not_pend {s : State} (hp : s.eng ≠ .pend) : engineStep s = .next s := by
  unfold engineStep
  split
  · contradiction
  · rfl
  · rfl

/-- HMACU's turn while a request waits is the second phase. -/
theorem hmacuStep_wait {s : State} {r : Request} (ok : Bool) (hw : s.eng = .wait) (hr : s.req = some r) :
    hmacuStep ok s = respond (hmacResponse ok r) s := by
  simp only [hmacuStep, hw, hr]

/-- HMACU has no step unless a request waits. -/
theorem hmacuStep_not_wait {s : State} (ok : Bool) (hw : s.eng ≠ .wait) : hmacuStep ok s = s := by
  unfold hmacuStep
  split
  · contradiction
  · contradiction
  · rfl
  · rfl

/-- The second phase of a waiting HOTP. -/
theorem respond_hotp {s : State} {d : Nat} {z : Bool} (resp : HmacResponse) (h : decode s.pcmd = .ok (.hotp d z)) :
    respond resp s = hotpRespond d z resp s := by
  simp only [respond, h]

/-- The second phase of a waiting TOTP. -/
theorem respond_totp {s : State} {d : Nat} {z : Bool} (resp : HmacResponse) (h : decode s.pcmd = .ok (.totp d z)) :
    respond resp s = totpRespond d z resp s := by
  simp only [respond, h]

/-- Everything HMACU's turn can do. -/
theorem hmacuStep_cases (ok : Bool) (s : State) :
    hmacuStep ok s = s ∨
    (s.eng = .wait ∧ ∃ r, s.req = some r ∧ ∃ d z,
      (decode s.pcmd = .ok (.hotp d z) ∧ hmacuStep ok s = hotpRespond d z (hmacResponse ok r) s) ∨
      (decode s.pcmd = .ok (.totp d z) ∧ hmacuStep ok s = totpRespond d z (hmacResponse ok r) s)) := by
  by_cases hw : s.eng = .wait
  · cases hr : s.req with
    | none => exact .inl (by simp only [hmacuStep, hw, hr])
    | some r =>
      rw [hmacuStep_wait ok hw hr]
      cases hd : decode s.pcmd with
      | error e => exact .inl (by simp only [respond, hd])
      | ok i =>
        cases i with
        | hotp d z => exact .inr ⟨hw, r, rfl, d, z, .inl ⟨rfl, respond_hotp _ hd⟩⟩
        | totp d z => exact .inr ⟨hw, r, rfl, d, z, .inr ⟨rfl, respond_totp _ hd⟩⟩
        | nop z => exact .inl (by simp only [respond, hd])
        | derive z => exact .inl (by simp only [respond, hd])
        | trunc z => exact .inl (by simp only [respond, hd])
        | reduce d z => exact .inl (by simp only [respond, hd])
        | format d z => exact .inl (by simp only [respond, hd])
        | dtf d z => exact .inl (by simp only [respond, hd])
        | kopen z => exact .inl (by simp only [respond, hd])
        | kpush kb z => exact .inl (by simp only [respond, hd])
        | kclose z => exact .inl (by simp only [respond, hd])
        | zall z => exact .inl (by simp only [respond, hd])
  · exact .inl (hmacuStep_not_wait ok hw)

/-- Everything a host instruction can do to the machine: one register write, or nothing to the block. -/
theorem execHost_cases {i : HostInstr} {s t : State} (h : execHost i s = .next t) :
    (∃ r v bus host, t = { writeReg r v s with bus := bus, host := host }) ∨
    (∃ bus host, t = { s with bus := bus, host := host }) := by
  cases i with
  | wrImm r v => cases h; exact .inl ⟨r, v, _, _, rfl⟩
  | wrReg r x => cases h; exact .inl ⟨r, s.hreg x, _, _, rfl⟩
  | rd x r => cases h; exact .inr ⟨_, _, rfl⟩
  | li x v => cases h; exact .inr ⟨_, _, rfl⟩
  | andi x y v => cases h; exact .inr ⟨_, _, rfl⟩
  | addi x y n => cases h; exact .inr ⟨_, _, rfl⟩
  | bnez x l =>
    simp only [execHost, hostBranch] at h
    split at h <;> cases h <;> exact .inr ⟨_, _, rfl⟩
  | beqz x l =>
    simp only [execHost, hostBranch] at h
    split at h <;> cases h <;> exact .inr ⟨_, _, rfl⟩
  | memRead x addr size =>
    simp only [execHost, hostMemRead] at h
    split at h <;> cases h
    exact .inr ⟨_, _, rfl⟩
  | memWrite addr size v =>
    simp only [execHost, hostMemWrite] at h
    split at h <;> cases h
    exact .inl ⟨_, v, _, _, rfl⟩

/-- Everything the host's turn can do. -/
theorem hostStep_cases {s t : State} (h : hostStep s = .next t) :
    (∃ r v bus host, t = { writeReg r v s with bus := bus, host := host }) ∨
    (∃ bus host, t = { s with bus := bus, host := host }) := by
  unfold hostStep at h
  split at h
  · cases h; exact .inr ⟨s.bus, s.host, rfl⟩
  · exact execHost_cases h

/-- Everything another master's access can do. -/
theorem busAccess_cases (a : Access) (s : State) :
    (∃ r v bus, busAccess a s = { writeReg r v s with bus := bus }) ∨ ∃ bus, busAccess a s = { s with bus := bus } := by
  cases a with
  | read addr size => exact .inr ⟨_, rfl⟩
  | write addr size v =>
    simp only [busAccess, busWrite]
    split
    · exact .inr ⟨_, rfl⟩
    · exact .inl ⟨_, v, _, rfl⟩

/-- What a step does, turn by turn, from the state `u` in which the turn has been taken. -/
theorem step_cases {s t : State} (h : step s = .next t) :
    ∃ u, u = takeTurn s ∧
      ((nextTurn s = .engine ∧ u.eng = .pend ∧ ∃ i, decode u.pcmd = .ok i ∧ exec i u = .next t) ∨
       (nextTurn s = .engine ∧ u.eng = .pend ∧ ∃ e, decode u.pcmd = .error e ∧ t = rejectIllegal e u) ∨
       (∃ ok, nextTurn s = .hmacu ok ∧ t = hmacuStep ok u) ∨
       (nextTurn s = .reset ∧ t = resetBlock u) ∨
       (∃ r v bus host, t = { writeReg r v u with bus := bus, host := host }) ∨
       (∃ bus host, t = { u with bus := bus, host := host })) := by
  refine ⟨takeTurn s, rfl, ?_⟩
  unfold step at h
  generalize takeTurn s = u at h ⊢
  cases hn : nextTurn s with
  | host =>
    rw [hn] at h
    rcases hostStep_cases h with h' | h'
    · exact .inr (.inr (.inr (.inr (.inl h'))))
    · exact .inr (.inr (.inr (.inr (.inr h'))))
  | bus a =>
    rw [hn] at h
    cases h
    rcases busAccess_cases a u with ⟨r, v, b, h'⟩ | ⟨b, h'⟩
    · exact .inr (.inr (.inr (.inr (.inl ⟨r, v, b, (writeReg r v u).host, h'⟩))))
    · exact .inr (.inr (.inr (.inr (.inr ⟨b, u.host, h'⟩))))
  | engine =>
    rw [hn] at h
    change engineStep u = .next t at h
    by_cases hp : u.eng = .pend
    · cases hd : decode u.pcmd with
      | ok i => exact .inl ⟨rfl, hp, i, rfl, (engineStep_ok hp hd) ▸ h⟩
      | error e =>
        rw [engineStep_error hp hd] at h
        cases h
        exact .inr (.inl ⟨rfl, hp, e, rfl, rfl⟩)
    · rw [engineStep_not_pend hp] at h
      cases h
      exact .inr (.inr (.inr (.inr (.inr ⟨t.bus, t.host, rfl⟩))))
  | hmacu ok =>
    rw [hn] at h
    cases h
    exact .inr (.inr (.inl ⟨ok, rfl, rfl⟩))
  | reset =>
    rw [hn] at h
    cases h
    exact .inr (.inr (.inr (.inl ⟨rfl, rfl⟩)))

/-- No command stops a step: `exec` always answers a next state. -/
theorem exec_answers_next (i : Instr) (s : State) : ∃ t, exec i s = .next t := by
  cases i with
  | nop z => exact ⟨_, rfl⟩
  | derive z => simp only [exec, execDerive]; split <;> exact ⟨_, rfl⟩
  | trunc z => exact ⟨_, rfl⟩
  | reduce d z => simp only [exec, execReduce]; split <;> exact ⟨_, rfl⟩
  | format d z => simp only [exec, execFormat]; split_ifs <;> exact ⟨_, rfl⟩
  | dtf d z => simp only [exec, execDtf]; split <;> exact ⟨_, rfl⟩
  | hotp d z => simp only [exec, execHotp]; split_ifs <;> exact ⟨_, rfl⟩
  | totp d z =>
    simp only [exec, execTotp]
    split
    · split
      · exact ⟨_, rfl⟩
      · split_ifs <;> exact ⟨_, rfl⟩
    · exact ⟨_, rfl⟩
  | kopen z => exact ⟨_, rfl⟩
  | kpush kb z => simp only [exec, execKpush]; split_ifs <;> exact ⟨_, rfl⟩
  | kclose z => exact ⟨_, rfl⟩
  | zall z => exact ⟨_, rfl⟩

/-- HOTP and TOTP, the commands that ask HMACU (R130). -/
def asksHmac (i : Instr) : Bool := i.op == 0x20 || i.op == 0x21

/-- The commands that produce a code: their failures invalidate CODE (R119). -/
def makesCode (i : Instr) : Bool := asksHmac i || i.op == 0x12 || i.op == 0x13

/-- How a command that completes leaves the key and the scope before the completion procedure. -/
def ScopeEffect (i : Instr) (s u : State) : Prop :=
  (u.scope = s.scope ∧ u.keybuf = s.keybuf ∧ u.keylen = s.keylen) ∨
  ((∃ z, i = .kopen z) ∧ u.scope = true) ∨
  ((∃ kb z, i = .kpush kb z) ∧ u.scope = s.scope) ∨
  (((∃ z, i = .kclose z) ∨ ∃ z, i = .zall z) ∧ u.scope = false ∧ u.keybuf = Vector.replicate Config.keyMax 0 ∧ u.keylen = 0)

/-- Everything a command's first step can do: issue the request, fail, or complete. -/
theorem exec_cases {i : Instr} {s t : State} (h : exec i s = .next t) :
    (asksHmac i = true ∧ ∃ c, t = issueHmac c s) ∨
    (∃ e, t = raise (asksHmac i) i.z e s) ∨
    (makesCode i = true ∧ ∃ e, t = raiseNoCode (asksHmac i) i.z e s) ∨
    (asksHmac i = false ∧ ∃ u, t = complete false i.z u ∧ ScopeEffect i s u) := by
  cases i with
  | nop z => cases h; exact .inr (.inr (.inr ⟨rfl, s, rfl, .inl ⟨rfl, rfl, rfl⟩⟩))
  | derive z =>
    simp only [exec, execDerive] at h
    split at h <;> cases h
    · exact .inr (.inl ⟨_, rfl⟩)
    · exact .inr (.inr (.inr ⟨rfl, _, rfl, .inl ⟨rfl, rfl, rfl⟩⟩))
  | trunc z => cases h; exact .inr (.inr (.inr ⟨rfl, _, rfl, .inl ⟨rfl, rfl, rfl⟩⟩))
  | reduce d z =>
    simp only [exec, execReduce] at h
    split_ifs at h <;> cases h
    · exact .inr (.inr (.inr ⟨rfl, _, rfl, .inl ⟨rfl, rfl, rfl⟩⟩))
    · exact .inr (.inl ⟨_, rfl⟩)
  | format d z =>
    simp only [exec, execFormat] at h
    split_ifs at h <;> cases h
    · exact .inr (.inr (.inl ⟨rfl, _, rfl⟩))
    · exact .inr (.inr (.inr ⟨rfl, _, rfl, .inl ⟨rfl, rfl, rfl⟩⟩))
    · exact .inr (.inr (.inl ⟨rfl, _, rfl⟩))
  | dtf d z =>
    simp only [exec, execDtf] at h
    split_ifs at h <;> cases h
    · exact .inr (.inr (.inr ⟨rfl, _, rfl, .inl ⟨rfl, rfl, rfl⟩⟩))
    · exact .inr (.inr (.inl ⟨rfl, _, rfl⟩))
  | hotp d z =>
    simp only [exec, execHotp] at h
    split_ifs at h <;> cases h
    · exact .inr (.inr (.inl ⟨rfl, _, rfl⟩))
    · exact .inl ⟨rfl, _, rfl⟩
    · exact .inr (.inr (.inl ⟨rfl, _, rfl⟩))
  | totp d z =>
    simp only [exec, execTotp] at h
    split at h
    · split at h
      · cases h; exact .inr (.inr (.inl ⟨rfl, _, rfl⟩))
      · split_ifs at h <;> cases h
        · exact .inr (.inr (.inl ⟨rfl, _, rfl⟩))
        · exact .inl ⟨rfl, _, rfl⟩
    · cases h; exact .inr (.inr (.inl ⟨rfl, _, rfl⟩))
  | kopen z => cases h; exact .inr (.inr (.inr ⟨rfl, _, rfl, .inr (.inl ⟨⟨z, rfl⟩, rfl⟩)⟩))
  | kpush kb z =>
    simp only [exec, execKpush] at h
    split_ifs at h <;> cases h
    · exact .inr (.inl ⟨_, rfl⟩)
    · exact .inr (.inl ⟨_, rfl⟩)
    · exact .inr (.inr (.inr ⟨rfl, _, rfl, .inr (.inr (.inl ⟨⟨kb, z, rfl⟩, rfl⟩))⟩))
  | kclose z => cases h; exact .inr (.inr (.inr ⟨rfl, _, rfl, .inr (.inr (.inr ⟨.inl ⟨z, rfl⟩, rfl, rfl, rfl⟩))⟩))
  | zall z => cases h; exact .inr (.inr (.inr ⟨rfl, _, rfl, .inr (.inr (.inr ⟨.inr ⟨z, rfl⟩, rfl, rfl, rfl⟩))⟩))

/-- The completion procedure leaves CTRL, OVR and what stands outside the block (R176). -/
theorem finish_outside (h z : Bool) (e : BitVec 4) (i : BitVec 8) (s : State) :
    (finish h z e i s).irqEn = s.irqEn ∧ (finish h z e i s).ovr = s.ovr ∧ (finish h z e i s).bus = s.bus ∧
    (finish h z e i s).host = s.host ∧ (finish h z e i s).sched = s.sched ∧ (finish h z e i s).draws = s.draws := by
  rw [finish_record]
  exact ⟨rfl, rfl, rfl, rfl, rfl, rfl⟩

/-- No command writes CTRL or OVR, and none touches what stands outside the block. -/
theorem exec_outside {i : Instr} {s t : State} (h : exec i s = .next t) :
    t.irqEn = s.irqEn ∧ t.ovr = s.ovr ∧ t.bus = s.bus ∧ t.host = s.host ∧ t.sched = s.sched ∧ t.draws = s.draws := by
  cases i with
  | nop z => cases h; exact finish_outside _ _ _ _ _
  | derive z => simp only [exec, execDerive] at h; split at h <;> cases h <;> exact finish_outside _ _ _ _ _
  | trunc z => cases h; exact finish_outside _ _ _ _ _
  | reduce d z => simp only [exec, execReduce] at h; split_ifs at h <;> cases h <;> exact finish_outside _ _ _ _ _
  | format d z => simp only [exec, execFormat] at h; split_ifs at h <;> cases h <;> exact finish_outside _ _ _ _ _
  | dtf d z => simp only [exec, execDtf] at h; split_ifs at h <;> cases h <;> exact finish_outside _ _ _ _ _
  | hotp d z =>
    simp only [exec, execHotp] at h
    split_ifs at h <;> cases h
    · exact finish_outside _ _ _ _ _
    · exact ⟨rfl, rfl, rfl, rfl, rfl, rfl⟩
    · exact finish_outside _ _ _ _ _
  | totp d z =>
    simp only [exec, execTotp] at h
    split at h
    · split at h
      · cases h; exact finish_outside _ _ _ _ _
      · split_ifs at h <;> cases h
        · exact finish_outside _ _ _ _ _
        · exact ⟨rfl, rfl, rfl, rfl, rfl, rfl⟩
    · cases h; exact finish_outside _ _ _ _ _
  | kopen z => cases h; exact finish_outside _ _ _ _ _
  | kpush kb z => simp only [exec, execKpush] at h; split_ifs at h <;> cases h <;> exact finish_outside _ _ _ _ _
  | kclose z => cases h; exact finish_outside _ _ _ _ _
  | zall z => cases h; exact finish_outside _ _ _ _ _

end Sys2Proof.Machine
end

