-- ==== Sys2Proof/Tests/Slice0.lean ====
section
/-! SUPPORT. Tests: ill-formed commands, command words written out from spec/30_encoding.md, one step of each command with
values of spec/95_test_vectors.md, and a witness for the hypotheses of every obligation that has some. -/

namespace Sys2Proof.Machine.Tests

open Sys2Proof Sys2Proof.Machine Sys2Proof.Machine.Spec

/-! ## Ill-formed commands: a DigitCount past its four bits (R83) -/

theorem test_wf_refuses_reduce_16 : (Instr.reduce 16 false).wf = false := by decide
theorem test_wf_refuses_format_16 : (Instr.format 16 true).wf = false := by decide
theorem test_wf_refuses_dtf_17 : (Instr.dtf 17 false).wf = false := by decide
theorem test_wf_refuses_hotp_16 : (Instr.hotp 16 false).wf = false := by decide
theorem test_wf_refuses_totp_256 : (Instr.totp 256 false).wf = false := by decide
theorem test_wf_admits_15 : (Instr.totp 15 true).wf = true := by decide

/-! ## Words, bit by bit: RSV2, KB, RSV1, Z, DIG, OP (R81, R87, R93) -/

theorem test_decode_nop_z : decode 0b00000000_00000000_000_1_0000_00000000#32 = .ok (.nop true) := by decide
theorem test_decode_derive : decode 0b00000000_00000000_000_0_0000_00000001#32 = .ok (.derive false) := by decide
theorem test_decode_trunc : decode 0b00000000_00000000_000_0_0000_00010000#32 = .ok (.trunc false) := by decide
theorem test_decode_reduce_6 : decode 0b00000000_00000000_000_0_0110_00010001#32 = .ok (.reduce 6 false) := by decide
theorem test_decode_format_8 : decode 0b00000000_00000000_000_0_1000_00010010#32 = .ok (.format 8 false) := by decide
theorem test_decode_dtf_7 : decode 0b00000000_00000000_000_0_0111_00010011#32 = .ok (.dtf 7 false) := by decide
theorem test_decode_hotp_z_6 : decode 0b00000000_00000000_000_1_0110_00100000#32 = .ok (.hotp 6 true) := by decide
theorem test_decode_totp_z_8 : decode 0b00000000_00000000_000_1_1000_00100001#32 = .ok (.totp 8 true) := by decide
theorem test_decode_kopen : decode 0b00000000_00000000_000_0_0000_00110000#32 = .ok (.kopen false) := by decide
theorem test_decode_kpush_47 :
    decode 0b00000000_01000111_000_0_0000_00110001#32 = .ok (.kpush 0x47 false) := by decide
theorem test_decode_kclose : decode 0b00000000_00000000_000_0_0000_00110010#32 = .ok (.kclose false) := by decide
theorem test_decode_zall : decode 0b00000000_00000000_000_0_0000_00111111#32 = .ok (.zall false) := by decide

/-- R91's example: TRUNC takes no DigitCount. -/
theorem test_decode_trunc_with_dig : decode 0x00000510 = .error .reservedField := by decide
/-- R91's example: an unsupported DigitCount is no illegal command. -/
theorem test_decode_reduce_5 : decode 0x00000511 = .ok (.reduce 5 false) := by decide
/-- R86: RSV1. -/
theorem test_decode_rsv1 : decode 0x00002000 = .error .reservedField := by decide
/-- R86: RSV2. -/
theorem test_decode_rsv2 : decode 0x80000031 = .error .reservedField := by decide
/-- R90: the first value above NOP and DERIVE. -/
theorem test_decode_reserved_opcode : decode 0x00000002 = .error .reservedOpcode := by decide
/-- R174: a reserved opcode is reported before a reserved field. -/
theorem test_decode_opcode_before_field : decode 0xFFFFFFFF = .error .reservedOpcode := by decide
theorem test_decodeTableWord : decodeTableWord 32 0x00470031 = some (.kpush 0x47 false) := by decide
theorem test_encode_kpush : encode (.kpush 0x47 true) = 0x00471031 := by decide

/-! ## One step of each command -/

/-- The state of an outcome; a state with every field at reset where there is none. -/
def stateOf : Result → State
  | .next t => t
  | .fault _ => .reset
  | .refused _ => .reset

/-- STATUS as a number. -/
def statusOf (s : State) : Nat := (readReg .status s).toNat

/-- A byte string of twenty bytes, the first byte the most significant of the number. -/
def digestOf (n : Nat) : Vector Byte 20 := Vector.ofFn fun i => BitVec.ofNat 8 (n / 2 ^ (8 * (19 - i.val)))

/-- The state after reset with a command word accepted, and turns to take. -/
def pending (w : Word) (turns : List Turn) : State := { accept w State.reset with sched := turns }

/-- One key byte in an open scope. -/
def keyed (s : State) : State := { s with keybuf := s.keybuf.set 0 0x47, keylen := 1, scope := true }

/-- A HOTP or TOTP waiting for its answer, one key byte held, counter 1. -/
def waiting (w : Word) (turns : List Turn) : State :=
  { keyed (pending w turns) with eng := .wait, clatch := 1, req := some { key := [0x47], msg := message 1 } }

/-- V-C1. -/
theorem test_derive : let t := stateOf (exec (.derive false) { State.reset with ts := 20005041, stepSize := 30 })
    t.ctr = 666834 ∧ statusOf t = 0x00000002 := by decide
/-- V-C11: STEP_ZERO is reported before TS_BEFORE_T0. -/
theorem test_derive_step_zero :
    let t := stateOf (exec (.derive false) { State.reset with ts := 5, t0 := 10, ctr := 7 })
    t.ctr = 7 ∧ statusOf t = 0x00010102 := by decide
/-- V-T6: the high nibble of the last byte is ignored, and the window ends before it. -/
theorem test_trunc :
    (stateOf (exec (.trunc false) { State.reset with digest := digestOf 0x12345678FF })).bin = 0x12345678 := by decide
/-- V-T4. -/
theorem test_trunc_rfc4226 : (stateOf (exec (.trunc false) { State.reset with
    digest := digestOf 0x1f8698690e02ca16618550ef7f19da8e945b555a })).bin = 1357872921 := by decide
/-- V-R5. -/
theorem test_reduce : (stateOf (exec (.reduce 8 false) { State.reset with bin := 1357872921 })).num = 57872921 := by decide
/-- V-R7: NUM and CODE stay. -/
theorem test_reduce_unsupported :
    let t := stateOf (exec (.reduce 9 false) { State.reset with bin := 5, num := 3, codelen := 6 })
    t.num = 3 ∧ t.codelen = 6 ∧ statusOf t = 0x00030102 := by decide
/-- V-F4. -/
theorem test_format : let t := stateOf (exec (.format 6 false) { State.reset with num := 872921 })
    readReg .code0 t = 0x39323738 ∧ readReg .code1 t = 0x00003132 ∧ readReg .code2 t = 0 ∧ t.codelen = 6 := by decide
/-- V-F7. -/
theorem test_format_range : let t := stateOf (exec (.format 6 false) { State.reset with num := 1000000, codelen := 8 })
    t.codelen = 0 ∧ t.num = 1000000 ∧ statusOf t = 0x00040102 := by decide
/-- V-D6, and DTF does not zero DIGEST (R118). -/
theorem test_dtf :
    let dg := digestOf 0xbc41cd16ab84f3e1b04faf2f27060d267d1a1047
    let t := stateOf (exec (.dtf 8 false) { State.reset with digest := dg })
    t.bin = 1638944687 ∧ t.num = 38944687 ∧ readReg .code0 t = 0x34393833 ∧ readReg .code1 t = 0x37383634 ∧
      t.digest = dg := by decide
/-- V-H11 with a key of one byte. -/
theorem test_hotp :
    let t := stateOf (exec (.hotp 6 false) { keyed (pending 0x00000620 []) with ctr := 1 })
    t.eng = .wait ∧ t.clatch = 1 ∧ statusOf t = 0x00000009 ∧
      t.req = some { key := [0x47], msg := #v[0, 0, 0, 0, 0, 0, 0, 1] } := by decide
/-- V-H13: the host's digest is zeroed, and no request is issued. -/
theorem test_hotp_key_empty :
    let t := stateOf (exec (.hotp 6 false) { State.reset with digest := digestOf 0xFF, bin := 9 })
    t.eng = .idle ∧ t.req = none ∧ t.digest = zeros 20 ∧ t.bin = 9 ∧ statusOf t = 0x00010202 := by decide
/-- V-H1, the second phase of `hotp 6`, with the answer's digest given. -/
theorem test_hotp_respond :
    let t := hotpRespond 6 false (.ok (digestOf 0xcc93cf18508d94934c64b65d8ba7667fb7cde4b0)) (waiting 0x00000620 [])
    t.bin = 1284755224 ∧ t.num = 755224 ∧ t.digest = zeros 20 ∧ t.req = none ∧ t.clatch = 0 := by decide
/-- V-P8: CTR is not yet written. -/
theorem test_totp :
    let t := stateOf (exec (.totp 8 false) { keyed (pending 0x00000821 []) with ts := 59, stepSize := 30 })
    t.clatch = 1 ∧ t.ctr = 0 ∧ t.eng = .wait := by decide
/-- V-P1, the second phase of `totp 8`: CTR is committed. -/
theorem test_totp_respond :
    let t := totpRespond 8 false (.ok (digestOf 0x75a48a19d4cbe100644e8ac1397eea747a2d33ab)) (waiting 0x00000821 [])
    t.num = 94287082 ∧ t.ctr = 1 ∧ statusOf t = 0x0000000A := by decide
/-- V-K1. -/
theorem test_kopen : statusOf (stateOf (exec (.kopen false) State.reset)) = 0x0000000A := by decide
/-- V-K3: a zero byte counts. -/
theorem test_kpush : let t := stateOf (exec (.kpush 0x00 false) (keyed State.reset))
    t.keylen = 2 ∧ t.keybuf = (zeros 64).set 0 0x47 := by decide
/-- V-K8. -/
theorem test_kpush_full : let t := stateOf (exec (.kpush 0x41 false) { keyed State.reset with keylen := 64 })
    t.keylen = 64 ∧ t.keybuf = (zeros 64).set 0 0x47 ∧ statusOf t = 0x0002040A := by decide
/-- V-K4. -/
theorem test_kclose : let t := stateOf (exec (.kclose false) (keyed State.reset))
    t.keylen = 0 ∧ t.keybuf = zeros 64 ∧ statusOf t = 0x00000002 := by decide
/-- V-K12. -/
theorem test_zall :
    let t := stateOf (exec (.zall false) { keyed State.reset with stepSize := 30, bin := 5, codelen := 6, ovr := true })
    t.stepSize = 0 ∧ t.bin = 0 ∧ t.codelen = 0 ∧ t.keybuf = zeros 64 ∧ t.ovr = true := by decide
/-- V-K10. -/
theorem test_nop_z : let t := stateOf (exec (.nop true) (keyed State.reset))
    t.keylen = 0 ∧ t.scope = false ∧ statusOf t = 0x00000002 := by decide
/-- V-K14: an illegal word with Z = 1. -/
theorem test_illegal_z : let t := stateOf (step (keyed (pending 0x000010FF [.engine])))
    t.err = 3 ∧ t.info = 1 ∧ t.keylen = 0 ∧ t.scope = false := by decide
/-- The host's view: `withFetchWord` makes the next step run the word. -/
theorem test_withFetchWord : (stateOf (step (State.reset.withFetchWord 32 0x00000030))).scope = true := by decide
/-- `wrdigest 000102...13` (R113's example): DIGEST1 takes bytes 4 to 7. -/
theorem test_pseudo_wrdigest :
    pseudoWrdigest (digestOf 0x000102030405060708090a0b0c0d0e0f10111213) =
      [.wrImm .digest0 0x03020100, .wrImm .digest1 0x07060504, .wrImm .digest2 0x0B0A0908,
       .wrImm .digest3 0x0F0E0D0C, .wrImm .digest4 0x13121110] := by decide
/-- `loadkey 0x47` (R94), placed at the start of a program. -/
theorem test_pseudo_loadkey :
    pseudoLoadkey 0 [0x47] =
      [.wrImm .cmd 0x00000030, .rd 15 .status, .andi 15 15 1, .bnez 15 1,
       .wrImm .cmd 0x00470031, .rd 15 .status, .andi 15 15 1, .bnez 15 5] := by decide

/-! ## Witnesses: for each obligation with hypotheses, states and operands that meet them, each clause at a boundary -/

/-- A command waits for its answer when RESET comes. -/
theorem witness_ResetEventResetsTheBlock : (waiting 0x00000620 [.reset]).sched = .reset :: [] := rfl
theorem witness_AnswerOutsideWaitIsDropped :
    (pending 0x00000620 [.hmacu true]).sched = .hmacu true :: [] ∧ (pending 0x00000620 [.hmacu true]).eng ≠ .wait := by
  decide
theorem witness_CtrlHoldsIrqEnableAlone :
    State.reset.irqEn = false ∧ ({ State.reset with irqEn := true } : State).irqEn = true := by decide
theorem witness_StatusLayoutAndClearing :
    ({ State.reset with sched := [.bus (.read (Config.base + 0x0C) 4)] } : State).sched =
      .bus (.read (Config.base + 0x0C) 4) :: [] := rfl
/-- Another size, an unaligned offset, and the first and the last reserved offset. -/
theorem witness_NonConformingAccess_offsets :
    ((2 : Nat) ≠ 4 ∨ 0 % 4 ≠ 0 ∨ 0 ∉ offsetTable.map Prod.fst) ∧
    ((4 : Nat) ≠ 4 ∨ 0x79 % 4 ≠ 0 ∨ 0x79 ∉ offsetTable.map Prod.fst) ∧
    ((4 : Nat) ≠ 4 ∨ 0x1C % 4 ≠ 0 ∨ 0x1C ∉ offsetTable.map Prod.fst) ∧
    ((4 : Nat) ≠ 4 ∨ 0xFC % 4 ≠ 0 ∨ 0xFC ∉ offsetTable.map Prod.fst) := by decide
/-- A host whose one instruction is `i`, with the next turn. -/
def hosting (i : HostInstr) : State := { State.reset with sched := [.host], host := { HostAgent.start with prog := [i] } }
theorem witness_NonConformingAccessIsBusError_read :
    ({ State.reset with sched := [.bus (.read (Config.base + 0x1C) 4)] } : State).sched =
      .bus (.read (Config.base + 0x1C) 4) :: [] := rfl
theorem witness_NonConformingAccessIsBusError_write :
    ({ State.reset with sched := [.bus (.write (Config.base + 0xFC) 4 1)] } : State).sched =
      .bus (.write (Config.base + 0xFC) 4 1) :: [] := rfl
theorem witness_NonConformingAccessIsBusError_hostRead :
    (hosting (.memRead 3 (Config.base + 0x0D) 4)).sched = .host :: [] ∧
    (hosting (.memRead 3 (Config.base + 0x0D) 4)).host.prog[(hosting (.memRead 3 (Config.base + 0x0D) 4)).host.pc]? =
      some (.memRead 3 (Config.base + 0x0D) 4) := ⟨rfl, rfl⟩
theorem witness_NonConformingAccessIsBusError_hostWrite :
    (hosting (.memWrite (Config.base + 0x08) 2 1)).sched = .host :: [] ∧
    (hosting (.memWrite (Config.base + 0x08) 2 1)).host.prog[(hosting (.memWrite (Config.base + 0x08) 2 1)).host.pc]? =
      some (.memWrite (Config.base + 0x08) 2 1) := ⟨rfl, rfl⟩
theorem witness_WindowReadReturnsTheRegister :
    (0x78, Reg.code2) ∈ offsetTable ∧ (0x00, Reg.id) ∈ offsetTable ∧
    ({ State.reset with sched := [.bus (.read (Config.base + 0x78) 4)] } : State).sched =
      .bus (.read (Config.base + 0x78) 4) :: [] := ⟨by decide, by decide, rfl⟩
theorem witness_WindowWriteDoesItsCase :
    (0x50, Reg.digest4) ∈ offsetTable ∧ (0x08, Reg.ctrl) ∈ offsetTable ∧
    ({ State.reset with sched := [.bus (.write (Config.base + 0x50) 4 1)] } : State).sched =
      .bus (.write (Config.base + 0x50) 4 1) :: [] := ⟨by decide, by decide, rfl⟩
theorem witness_WriteWhileBusyIsIgnoredAndReported :
    (0x10, Reg.cmd) ∈ offsetTable ∧ Reg.cmd ≠ .ctrl ∧ Reg.cmd ≠ .status ∧
    (pending 0 [.bus (.write (Config.base + 0x10) 4 1)]).busy = true ∧
    (pending 0 [.bus (.write (Config.base + 0x10) 4 1)]).sched = .bus (.write (Config.base + 0x10) 4 1) :: [] :=
  ⟨by decide, by decide, by decide, rfl, rfl⟩
theorem witness_DigestWriteFollowsByteLanes :
    (0x40 + 4 * (0 : Fin 5).val, Reg.digest0) ∈ offsetTable ∧ (0x40 + 4 * (4 : Fin 5).val, Reg.digest4) ∈ offsetTable ∧
    State.reset.busy = false := by decide
/-- The bytes outside DIGEST2: the last below it and the first above it. -/
theorem witness_DigestWriteFollowsByteLanes_outside :
    (7 < 4 * (2 : Fin 5).val ∨ 4 * (2 : Fin 5).val + 4 ≤ 7) ∧ (12 < 4 * (2 : Fin 5).val ∨ 4 * (2 : Fin 5).val + 4 ≤ 12) := by
  decide
theorem witness_CodeWordLanesAreCharacters :
    (0x70 + 4 * (0 : Fin 3).val, Reg.code0) ∈ offsetTable ∧ (0x70 + 4 * (2 : Fin 3).val, Reg.code2) ∈ offsetTable := by decide
/-- Both orders of the two writes exist, from a state with BUSY = 0. -/
theorem witness_TwoHalvesMakeTheRegister : State.reset.busy = false ∧
    ∃ t, t = writeReg Reg64.ts.hi ((0x0123456789ABCDEF : DWord).extractLsb' 32 32)
      (writeReg Reg64.ts.lo ((0x0123456789ABCDEF : DWord).extractLsb' 0 32) State.reset) := ⟨rfl, _, rfl⟩
/-- Two states that differ in every field the window hides. -/
theorem witness_ReadsDoNotDependOnHiddenState :
    let s := State.reset
    let t := { s with keybuf := (zeros 64).set 0 1, digest := digestOf 1, pcmd := 1, clatch := 1,
                      req := some { key := [1], msg := message 1 } }
    t = { s with keybuf := t.keybuf, digest := t.digest, pcmd := t.pcmd, clatch := t.clatch, req := t.req } ∧ t ≠ s := by
  decide
theorem witness_IrqIsEnableAndDone :
    (0xFFFFFFFE : Word).getLsbD 0 = false ∧ ({ State.reset with irqEn := true } : State).irqEn = true := by decide
theorem witness_IrqFallsWhenCleared :
    let s : State := { State.reset with irqEn := true, done := true, sched := [.bus (.read (Config.base + 0x0C) 4)] }
    s.irq = true ∧ (0x2 : Word).getLsbD 1 = true ∧ s.busy = false ∧ (0x2 : Word).getLsbD 0 = false ∧
    s.sched = .bus (.read (Config.base + 0x0C) 4) :: [] ∧ ∃ t, step s = .next t := ⟨rfl, by decide, rfl, by decide, rfl, _, rfl⟩
theorem witness_HostInstructionsDoTheirForms :
    (hosting (.li 15 7)).sched = .host :: [] ∧
    (hosting (.li 15 7)).host.prog[(hosting (.li 15 7)).host.pc]? = some (.li 15 7) := by decide
theorem witness_DecodeOfEncodeIsIdentity :
    (Instr.hotp 15 true).wf = true ∧ (Instr.kpush 0xFF true).wf = true := by decide
theorem witness_EncodeOfDecodeIsIdentity : decode 0x00001F21 = .ok (.totp 15 true) := by decide
theorem witness_DecodeAgreesWithMatchAndMask :
    decode 0x00FF1031 = .ok (.kpush 0xFF true) ∧ (Instr.kpush 0xFF true).row ∈ opcodeTable ∧
    (0x00FF1031 : Word) &&& (Instr.kpush 0xFF true).row.mask = (Instr.kpush 0xFF true).row.mtch := by decide
theorem witness_ReservedOpcodesAreIllegal : decode 0x00001000 = .ok (.nop true) := by decide
theorem witness_DecodeProcedureAndIllegalCompletion :
    (pending 0x00000040 [.engine]).sched = .engine :: [] ∧ (pending 0x00000040 [.engine]).eng = .pend ∧
    decode (pending 0x00000040 [.engine]).pcmd = .error .reservedOpcode ∧
    decode (pending 0x01000020 [.engine]).pcmd = .error .reservedField := by decide
theorem witness_AcceptedCommandIsRunByTheEngine :
    State.reset.busy = false ∧ (pending 0x00000620 [.engine]).sched = .engine :: [] ∧
    (pending 0x00000620 [.engine]).eng = .pend ∧ decode (pending 0x00000620 [.engine]).pcmd = .ok (.hotp 6 false) ∧
    decode (pending 0x00000040 [.engine]).pcmd = .error .reservedOpcode := by decide
theorem witness_AcceptedCommandIsRunByTheEngine_accept :
    ({ State.reset with sched := [.bus (.write (Config.base + 0x10) 4 0xFFFFFFFF)] } : State).sched =
      .bus (.write (Config.base + 0x10) 4 0xFFFFFFFF) :: [] := rfl
theorem witness_ResponseRunsTheWaitingCommand :
    let s := waiting 0x00000620 [.hmacu false]
    let t := waiting 0x00000821 [.hmacu true]
    s.sched = .hmacu false :: [] ∧ t.sched = .hmacu true :: [] ∧ s.eng = .wait ∧ t.eng = .wait ∧
    s.req = some { key := [0x47], msg := message 1 } ∧ t.req = some { key := [0x47], msg := message 1 } ∧
    decode s.pcmd = .ok (.hotp 6 false) ∧ decode t.pcmd = .ok (.totp 8 false) := by decide
theorem witness_EngineRunsOnlyWhenPending :
    ({ State.reset with sched := [.engine] } : State).sched = .engine :: [] ∧ State.reset.eng ≠ .pend ∧
    (waiting 0x00000620 [.engine]).sched = .engine :: [] ∧ (waiting 0x00000620 [.engine]).eng ≠ .pend := by decide
theorem witness_CompletionProcedure : decode 0x00001031 = .ok (.kpush 0x00 true) := by decide
theorem witness_ErrorCodesAreTheTables :
    CmdError.keyFull.errCode = CmdError.keyFull.errCode ∧ CmdError.keyFull.infoCode = CmdError.keyFull.infoCode := by decide
/-- A reserved field of each kind, on NOP's opcode, and on the opcodes that take an operand. -/
theorem witness_ReservedFieldsIllegal :
    ((0x00002000 : Word).extractLsb' 0 8 = 0x00 ∧ (0x00002000 : Word).extractLsb' 13 3 ≠ 0) ∧
    ((0x80000031 : Word).extractLsb' 0 8 = 0x31 ∧ (0x80000031 : Word).extractLsb' 24 8 ≠ 0) ∧
    ((0x00000101 : Word).extractLsb' 0 8 = 0x01 ∧ (0x00000101 : Word).extractLsb' 8 4 ≠ 0) ∧
    ((0x00010620 : Word).extractLsb' 0 8 = 0x20 ∧ (0x00010620 : Word).extractLsb' 16 8 ≠ 0) := by decide
/-- REDUCE, DTF: the ends of the supported set and their neighbours. -/
theorem witness_ReduceTakesTheRemainder : Supported 6 ∧ Supported 8 ∧ ¬ Supported 5 ∧ ¬ Supported 9 := by
  unfold Supported; decide
theorem witness_DtfMakesTheCodeOfTheDigest : Supported 7 ∧ ¬ Supported 0 := by unfold Supported; decide
/-- FORMAT: the largest number that fits, the smallest that does not, and an unsupported DigitCount. -/
theorem witness_FormatWritesDecimalDigits :
    (Supported 6 ∧ ({ State.reset with num := 999999 } : State).num.toNat < 10 ^ 6) ∧
    (Supported 6 ∧ 10 ^ 6 ≤ ({ State.reset with num := 1000000 } : State).num.toNat) ∧ ¬ Supported 15 := by
  unfold Supported; decide
theorem witness_HotpIssuesItsRequest :
    (Supported 6 ∧ (keyed State.reset).keylen ≠ 0) ∧ (Supported 8 ∧ State.reset.keylen = 0) ∧ ¬ Supported 9 := by
  unfold Supported; decide
theorem witness_HotpConsumesTheResponse :
    let s := waiting 0x00001620 [.hmacu true]
    let t := waiting 0x00001620 [.hmacu false]
    s.eng = .wait ∧ s.req = some { key := [0x47], msg := message 1 } ∧ decode s.pcmd = .ok (.hotp 6 true) ∧
    s.sched = .hmacu true :: [] ∧ t.sched = .hmacu false :: [] := by decide
theorem witness_TotpIssuesItsRequest : ¬ Supported 10 ∧ Supported 8 := by unfold Supported; decide
theorem witness_TotpConsumesTheResponse :
    let s := waiting 0x00000821 [.hmacu true]
    let t := waiting 0x00000821 [.hmacu false]
    s.eng = .wait ∧ s.req = some { key := [0x47], msg := message 1 } ∧ decode s.pcmd = .ok (.totp 8 false) ∧
    s.sched = .hmacu true :: [] ∧ t.sched = .hmacu false :: [] := by decide
/-- KPUSH: a closed scope, a full buffer, and room for the last byte. -/
theorem witness_KpushAppendsTheByte :
    State.reset.scope = false ∧
    (({ keyed State.reset with keylen := 64 } : State).scope = true ∧
      ({ keyed State.reset with keylen := 64 } : State).keylen.toNat = 64) ∧
    (({ keyed State.reset with keylen := 63 } : State).scope = true ∧
      ({ keyed State.reset with keylen := 63 } : State).keylen.toNat < 64) := by decide
theorem witness_CounterIsMonotonic :
    (30 : DWord) ≠ 0 ∧ (29 : DWord).toNat ≤ (29 : DWord).toNat ∧ (29 : DWord).toNat ≤ (59 : DWord).toNat := by decide
theorem witness_CounterDivisionIsExact : deriveCounter 0xFFFFFFFFFFFFFFFF 0 1 = .ok 0xFFFFFFFFFFFFFFFF := by decide
theorem witness_ReductionLaws :
    (0x7FFFFFFF : Word).toNat < 2 ^ 31 ∧ 6 ∈ digitSetOf true ∧ 10 ∈ digitSetOf true ∧ 6 ≤ 10 := by decide
/-- V-T3's digest and one that differs in bytes outside its window only. -/
theorem witness_TruncationReadsOnlyItsWindow :
    let dg := digestOf 0xFFFFFFFFFFFFFFFFFFFFFFFFFFFFFFFFFFFFFFFF
    let dg' := digestOf 0x00000000000000000000000000000000FFFFFFFF0F
    dg ≠ dg' ∧ byteNat dg 19 % 16 = byteNat dg' 19 % 16 ∧
    ∀ j : Fin 4, byteNat dg ((dynOffset dg).val + j.val) = byteNat dg' ((dynOffset dg).val + j.val) := by decide
theorem witness_ShorterCodeIsSuffix :
    (0x7FFFFFFF : Word).toNat < 2 ^ 31 ∧ 6 ∈ digitSetOf true ∧ 10 ∈ digitSetOf true ∧ 6 ≤ 10 := by decide
theorem witness_CodeSpellsTheNumber : 10 ∈ digitSetOf true ∧ 9999999999 < 10 ^ 10 := by decide

/-- The invariants hold of a state in which a command is pending. -/
theorem pending_inv (w : Word) (turns : List Turn) : Inv (pending w turns) :=
  outside_inv .none .start turns 0 (accept_inv w (by constructor <;> simp [State.reset, CodeShape]) rfl)

theorem witness_EveryStepKeepsTheInvariants :
    Inv (pending 0x00000030 [.engine]) ∧ ∃ t, step (pending 0x00000030 [.engine]) = .next t :=
  ⟨pending_inv _ _, _, rfl⟩
/-- DERIVE with STEP = 0, and a HOTP answered FAIL. -/
theorem witness_FailedCommandWritesNoResult :
    (∃ t, (pending 0x00000001 [.engine]).sched = .engine :: [] ∧ (pending 0x00000001 [.engine]).err = 0 ∧
      step (pending 0x00000001 [.engine]) = .next t ∧ t.err ≠ 0) ∧
    (∃ t, (waiting 0x00000620 [.hmacu false]).sched = .hmacu false :: [] ∧ (waiting 0x00000620 [.hmacu false]).err = 0 ∧
      step (waiting 0x00000620 [.hmacu false]) = .next t ∧ t.err ≠ 0) :=
  ⟨⟨_, rfl, rfl, rfl, by decide⟩, ⟨_, rfl, rfl, rfl, by decide⟩⟩
/-- `kclose`, `nop.z`, a `hotp.z` answered FAIL, and reset. -/
theorem witness_ScopeEndsOnlyByItsFourWays :
    ∀ s ∈ [keyed (pending 0x00000032 [.engine]), keyed (pending 0x00001000 [.engine]), waiting 0x00001620 [.hmacu false],
      keyed (pending 0 [.reset])],
    s.scope = true ∧ (stateOf (step s)).scope = false := by decide
/-- `kopen` erases the key held, and `kpush` adds to it. -/
theorem witness_KeyChangesOnlyByKeyCommands :
    ∀ s ∈ [keyed (pending 0x00000030 [.engine]), keyed (pending 0x00000031 [.engine])],
    (stateOf (step s)).keylen ≠ s.keylen := by decide
/-- A HOTP answered FAIL, and a TOTP that fails in its first phase. -/
theorem witness_WorkingCopiesErasedOnEveryExit :
    (decode (waiting 0x00000620 [.hmacu false]).pcmd = .ok (.hotp 6 false) ∧
      (waiting 0x00000620 [.hmacu false]).eng ≠ .idle ∧
      (stateOf (step (waiting 0x00000620 [.hmacu false]))).eng = .idle) ∧
    (decode (pending 0x00000921 [.engine]).pcmd = .ok (.totp 9 false) ∧ (pending 0x00000921 [.engine]).eng ≠ .idle ∧
      (stateOf (step (pending 0x00000921 [.engine]))).eng = .idle) := by decide
/-- Two different keys of one length, with a `hotp 6` pending. -/
theorem witness_SecretFlowsOnlyThroughAnOkAnswer :
    let s := keyed (pending 0x00000620 [.engine])
    let t := { s with keybuf := s.keybuf.set 0 0x48 }
    EqualButSecret s t ∧ s ≠ t ∧ nextTurn s ≠ .hmacu true := ⟨⟨rfl, rfl⟩, by decide, by decide⟩
theorem witness_CommandEndsInAtMostTwoTurns :
    (keyed (pending 0x00000620 [.engine, .hmacu true])).eng = .pend ∧
    (keyed (pending 0x00000620 [.engine, .hmacu true])).sched = .engine :: .hmacu true :: [] := by decide
theorem witness_HotpGivesTheCodeOfItsHmac :
    let s := keyed (pending 0x00000620 [.engine, .hmacu true])
    s.keylen ≠ 0 ∧ s.eng = .pend ∧ decode s.pcmd = .ok (.hotp 6 false) ∧ s.sched = .engine :: .hmacu true :: [] := by decide
theorem witness_TotpIsDeriveThenHotp :
    let s := keyed { State.reset with ts := 59, t0 := 59, stepSize := 30 }
    s.stepSize ≠ 0 ∧ s.t0.toNat ≤ s.ts.toNat ∧ s.keylen ≠ 0 ∧ s.eng = .idle ∧ s.busy = false := by decide

end Sys2Proof.Machine.Tests
end

section
/-! PROOFS. The statements about the key (10_state.md R33) and about the state the host reads: reset (R50), ID and CFG (R22,
R23), CTRL (R24), STATUS (R25) and irq (R48). -/

namespace Sys2Proof.Machine

open Sys2Proof.Machine.Spec

/-! ## The key: kept or erased, except by KOPEN and KPUSH -/

/-- `t` holds the key of `s`, or no key and a closed scope. -/
def KeyKeptOrErased (s t : State) : Prop :=
  (t.keylen = s.keylen ∧ t.keybuf = s.keybuf) ∨ (t.scope = false ∧ t.keylen = 0 ∧ t.keybuf = zeros 64)

/-- The completion procedure keeps the key, or erases it by Z (R176). -/
theorem KeyKeptOrErased.finish {s u : State} (hu : KeyKeptOrErased s u) (h z : Bool) (e : BitVec 4) (i : BitVec 8) :
    KeyKeptOrErased s (finish h z e i u) := by
  cases z with
  | true => exact .inr ⟨by simp, by simp, by simp [zeros]⟩
  | false => simpa [KeyKeptOrErased] using hu

theorem KeyKeptOrErased.refl (s : State) : KeyKeptOrErased s s := .inl ⟨rfl, rfl⟩

theorem hotpRespond_keyKeptOrErased (d : Nat) (z : Bool) (resp : HmacResponse) (s : State) :
    KeyKeptOrErased s (hotpRespond d z resp s) := by
  cases resp with
  | ok dg => exact .finish (.inl ⟨rfl, rfl⟩) ..
  | fail => exact .finish (.inl ⟨rfl, rfl⟩) ..

theorem totpRespond_keyKeptOrErased (d : Nat) (z : Bool) (resp : HmacResponse) (s : State) :
    KeyKeptOrErased s (totpRespond d z resp s) := by
  cases resp with
  | ok dg => exact .finish (.inl ⟨rfl, rfl⟩) ..
  | fail => exact .finish (.inl ⟨rfl, rfl⟩) ..

theorem hmacuStep_keyKeptOrErased (ok : Bool) (s : State) : KeyKeptOrErased s (hmacuStep ok s) := by
  rcases hmacuStep_cases ok s with h | ⟨-, r, -, d, z, ⟨-, h⟩ | ⟨-, h⟩⟩ <;> rw [h]
  · exact .refl s
  · exact hotpRespond_keyKeptOrErased d z _ s
  · exact totpRespond_keyKeptOrErased d z _ s

/-- A command other than KOPEN and KPUSH keeps the key or erases it. -/
theorem exec_keyKeptOrErased {i : Instr} {s t : State} (h : exec i s = .next t) :
    KeyKeptOrErased s t ∨ (∃ z, i = .kopen z) ∨ ∃ kb z, i = .kpush kb z := by
  rcases exec_cases h with ⟨-, c, rfl⟩ | ⟨e, rfl⟩ | ⟨-, e, rfl⟩ | ⟨-, u, rfl, hu⟩
  · exact .inl (.inl ⟨rfl, rfl⟩)
  · exact .inl (.finish (.refl s) ..)
  · exact .inl (.finish (.inl ⟨rfl, rfl⟩) ..)
  · rcases hu with ⟨-, hbuf, hlen⟩ | ⟨hi, -⟩ | ⟨hi, -⟩ | ⟨-, hscope, hbuf, hlen⟩
    · exact .inl (.finish (.inl ⟨hlen, hbuf⟩) ..)
    · exact .inr (.inl hi)
    · exact .inr (.inr hi)
    · exact .inl (.finish (.inr ⟨hscope, hlen, hbuf⟩) ..)

/-- A step keeps the key or erases it, unless it is the ENGINE's of a KOPEN or KPUSH. -/
theorem step_keyKeptOrErased {s t : State} (h : step s = .next t) :
    KeyKeptOrErased s t ∨ (nextTurn s = .engine ∧ s.eng = .pend ∧
      ((∃ z, decode s.pcmd = .ok (.kopen z)) ∨ ∃ kb z, decode s.pcmd = .ok (.kpush kb z))) := by
  obtain ⟨u, rfl, hcases⟩ := step_cases h
  obtain ⟨sched, draws, htake⟩ := takeTurn_record s
  rw [htake] at hcases
  rcases hcases with ⟨hturn, hpend, i, hdec, hexec⟩ | ⟨-, -, e, -, rfl⟩ | ⟨ok, -, rfl⟩ | ⟨-, rfl⟩ | ⟨r, v, b, host, rfl⟩ |
    ⟨b, host, rfl⟩
  · rcases exec_keyKeptOrErased hexec with hkey | ⟨z, rfl⟩ | ⟨kb, z, rfl⟩
    · exact .inl hkey
    · exact .inr ⟨hturn, hpend, .inl ⟨z, hdec⟩⟩
    · exact .inr ⟨hturn, hpend, .inr ⟨kb, z, hdec⟩⟩
  · exact .inl (.finish (.inl ⟨rfl, rfl⟩) ..)
  · exact .inl (hmacuStep_keyKeptOrErased ok _)
  · exact .inl (.inr ⟨rfl, rfl, rfl⟩)
  · exact .inl (.inl ⟨writeReg_keylen r v _, writeReg_keybuf r v _⟩)
  · exact .inl (.inl ⟨rfl, rfl⟩)

/-- Settles O55: what a step can do to the key is `step_keyKeptOrErased`, and a key that changed was not kept. -/
theorem keyChangesOnlyByKeyCommands : Obligations.KeyChangesOnlyByKeyCommands := by
  intro s t hstep hchanged
  rcases step_keyKeptOrErased hstep with (⟨hlen, hbuf⟩ | herased) | hcommand
  · exact absurd hchanged (by simp [hlen, hbuf])
  · exact .inl herased
  · exact .inr hcommand

/-! ## Reset -/

/-- At reset every register but ID and CFG reads 0 (R21, R50). -/
theorem readReg_reset {r : Reg} (hid : r ≠ .id) (hcfg : r ≠ .cfg) : readReg r State.reset = 0 := by
  have hall : ∀ r ∈ allRegs, r ≠ .id → r ≠ .cfg → readReg r State.reset = 0 := by decide
  exact hall r (mem_allRegs r) hid hcfg

theorem cfgWord_eq : Config.cfgWord = 0x01140040 := by decide

/-- Settles O1, field by field; the registers' reads are `readReg_reset`. -/
theorem resetValuesAreTheSpecs : Obligations.ResetValuesAreTheSpecs :=
  ⟨⟨rfl, rfl, rfl, rfl, rfl, rfl, rfl⟩, ⟨rfl, rfl, rfl, rfl, rfl, rfl, rfl, rfl⟩, ⟨rfl, rfl, rfl⟩,
    ⟨rfl, rfl, rfl, rfl, rfl⟩, rfl, cfgWord_eq, fun _ => readReg_reset⟩

/-! ## ID and CFG -/

/-- A write that R64 ignores while BUSY = 0 does nothing but set OVR while BUSY = 1 (R28, R68). -/
theorem writeReg_of_writeIdle_eq {r : Reg} {v : Word} {s : State} (hctrl : r ≠ .ctrl) (hstatus : r ≠ .status)
    (hidle : writeIdle r v s = s) : writeReg r v s = { s with ovr := s.ovr || s.busy } := by
  rcases writeReg_cases r v s with ⟨hr, -⟩ | ⟨hr, -⟩ | ⟨-, -, hbusy, hw⟩ | ⟨-, -, hbusy, hw⟩
  · exact absurd hr hctrl
  · exact absurd hr hstatus
  · simp [hw, hbusy]
  · have hovr : (s.ovr || s.busy) = s.ovr := by simp [hbusy]
    rw [hw, hidle, hovr]

/-- Settles O4: CFG is one literal, whose fields are evaluated, and both registers ignore writes while idle. -/
theorem identityRegistersAreConstant : Obligations.IdentityRegistersAreConstant := by
  refine ⟨fun s => ?_, fun s v => ⟨?_, ?_⟩⟩
  · have hcfg : readReg .cfg s = 0x01140040 := cfgWord_eq
    rw [hcfg]
    exact ⟨rfl, by decide⟩
  · exact writeReg_of_writeIdle_eq (by decide) (by decide) rfl
  · exact writeReg_of_writeIdle_eq (by decide) (by decide) rfl

/-! ## CTRL and irq -/

@[simp] theorem writeReg_ctrl (v : Word) (s : State) : writeReg .ctrl v s = { s with irqEn := v.getLsbD 0 } := rfl

/-- CTRL's bits: IRQ_EN in bit 0, and 0 elsewhere (R24). -/
theorem ctrlWord_getLsbD (s : State) (j : Nat) : (ctrlWord s).getLsbD j = (s.irqEn && decide (j = 0)) := by
  by_cases hj : j = 0
  · subst hj; simp [ctrlWord]
  · simp [ctrlWord, hj]

/-- Settles O5: CTRL by `writeReg_ctrl` and `ctrlWord_getLsbD`, irq by its definition. -/
theorem ctrlHoldsIrqEnableAlone : Obligations.CtrlHoldsIrqEnableAlone :=
  ⟨fun s v => writeReg_ctrl v s, ctrlWord_getLsbD, fun s h => by simp [State.irq, h], fun s h => by simp [State.irq, h],
    rfl⟩

/-- Settles O16: the completion procedure sets DONE and keeps IRQ_EN. -/
theorem irqIsEnableAndDone : Obligations.IrqIsEnableAndDone :=
  ⟨fun _ => rfl, fun s v hv => ⟨by rw [writeReg_ctrl, State.irq, hv, Bool.false_and], rfl⟩,
    fun s h z e i hen => by simp [State.irq, hen]⟩

/-! ## STATUS -/

/-- A bit of a word is the Boolean that its binary digit counts (R7). -/
theorem getLsbD_eq_of_digit {n k : Nat} {w : BitVec n} {b : Bool} (h : w.toNat / 2 ^ k % 2 = b.toNat) :
    w.getLsbD k = b := by
  rw [bit_eq_div, h]
  cases b <;> rfl

/-- A field of a word is the bit vector that its binary digits count (R7). -/
theorem extractLsb'_eq_of_digits {n lo len : Nat} {w : BitVec n} {f : BitVec len}
    (h : w.toNat / 2 ^ lo % 2 ^ len = f.toNat) : w.extractLsb' lo len = f :=
  BitVec.eq_of_toNat_eq ((field_toNat w lo len).trans h)

/-- STATUS's layout: its fields, and 0 in the reserved bits (R25). -/
theorem statusWord_layout (s : State) :
    (statusWord s).getLsbD 0 = s.busy ∧ (statusWord s).getLsbD 1 = s.done ∧
    (statusWord s).getLsbD 2 = s.ovr ∧ (statusWord s).getLsbD 3 = s.scope ∧
    (statusWord s).extractLsb' 4 4 = 0#4 ∧ (statusWord s).extractLsb' 8 4 = s.err ∧
    (statusWord s).extractLsb' 12 4 = 0#4 ∧ (statusWord s).extractLsb' 16 8 = s.info ∧
    (statusWord s).extractLsb' 24 8 = 0#8 := by
  have herr := s.err.isLt
  have hinfo := s.info.isLt
  have hbusy := s.busy.toNat_le
  have hdone := s.done.toNat_le
  have hovr := s.ovr.toNat_le
  have hscope := s.scope.toNat_le
  have hzero4 : (0#4).toNat = 0 := rfl
  have hzero8 : (0#8).toNat = 0 := rfl
  have hword := statusWord_toNat s
  refine ⟨getLsbD_eq_of_digit ?_, getLsbD_eq_of_digit ?_, getLsbD_eq_of_digit ?_, getLsbD_eq_of_digit ?_,
    extractLsb'_eq_of_digits ?_, extractLsb'_eq_of_digits ?_, extractLsb'_eq_of_digits ?_,
    extractLsb'_eq_of_digits ?_, extractLsb'_eq_of_digits ?_⟩ <;> omega

/-- A write-1-to-clear bit, as a choice (R25). -/
theorem and_not_eq_ite (a b : Bool) : (a && !b) = if b then false else a := by
  cases b
  · exact Bool.and_true a
  · exact Bool.and_false a

/-- A write to STATUS clears DONE by bit 1 and OVR by bit 2 (R25). -/
theorem writeReg_status (v : Word) (s : State) : writeReg .status v s =
    { s with done := if v.getLsbD 1 then false else s.done, ovr := if v.getLsbD 2 then false else s.ovr } := by
  change writeStatus v s = _
  rw [writeStatus, and_not_eq_ite, and_not_eq_ite]

/-- No register's value depends on the schedule. -/
@[simp] theorem readReg_after (r : Reg) (rest : List Turn) (s : State) : readReg r (after rest s) = readReg r s := by
  cases r <;> rfl

/-- Another master's read of a register answers with its value and changes nothing else (R63). -/
theorem step_read_reg {s : State} {rest : List Turn} (r : Reg)
    (h : s.sched = .bus (.read (Config.base + r.off) 4) :: rest) :
    step s = .next { after rest s with bus := .data (readReg r s) } := by
  have hread : busRead (Config.base + r.off) 4 (after rest s) = .data (readReg r s) := by
    simp only [busRead, regAt_base_off, readReg_after]
  rw [step_cons h, ← hread]
  rfl

/-- Settles O6, from the layout, the write and the read of STATUS. -/
theorem statusLayoutAndClearing : Obligations.StatusLayoutAndClearing :=
  ⟨statusWord_layout, fun s v => writeReg_status v s, fun _ _ => step_read_reg .status, by decide⟩

end Sys2Proof.Machine
end

section
/-! PROOFS. The statements about the register window: writes while BUSY = 1 (20_memory.md R68) and what reads hide (R67). -/

namespace Sys2Proof.Machine

open Sys2Proof.Machine.Spec

/-! ## Writes while BUSY = 1 -/

/-- The table of offsets pairs each register with its own offset (R21). -/
theorem off_of_mem_offsetTable {off : Nat} {r : Reg} (h : (off, r) ∈ offsetTable) : off = r.off := by
  have hall : ∀ p ∈ offsetTable, p.1 = p.2.off := by decide
  exact hall (off, r) h

/-- While BUSY = 1, a write to a register other than CTRL and STATUS sets OVR and does nothing else (R68). -/
theorem writeReg_of_busy {r : Reg} {s : State} (v : Word) (hctrl : r ≠ .ctrl) (hstatus : r ≠ .status)
    (hbusy : s.busy = true) : writeReg r v s = { s with ovr := true } := by
  rw [writeReg, if_neg hctrl, if_neg hstatus, if_pos hbusy]

/-- Another master's write at a register's address is the write of that register, recorded by the bus (R64). -/
theorem step_write_reg {s : State} {rest : List Turn} (r : Reg) (v : Word)
    (h : s.sched = .bus (.write (Config.base + r.off) 4 v) :: rest) :
    step s = .next { writeReg r v (after rest s) with bus := .written } := by
  have hwrite : busWrite (Config.base + r.off) 4 v (after rest s) =
      { writeReg r v (after rest s) with bus := .written } := by
    simp only [busWrite, regAt_base_off]
  rw [step_cons h, ← hwrite]
  rfl

/-- Settles O11: the access is the write of its register, which `writeReg_of_busy` ignores. -/
theorem writeWhileBusyIsIgnoredAndReported : Obligations.WriteWhileBusyIsIgnoredAndReported := by
  intro s r off v rest hmem hctrl hstatus hbusy hsched
  obtain rfl := off_of_mem_offsetTable hmem
  have hafter : (after rest s).busy = true := hbusy
  rw [step_write_reg r v hsched, writeReg_of_busy v hctrl hstatus hafter]

/-! ## What reads hide -/

/-- The write-only registers read 0 (R67). -/
theorem readReg_writeOnly (s : State) :
    ∀ r ∈ [Reg.cmd, .digest0, .digest1, .digest2, .digest3, .digest4], readReg r s = 0 :=
  List.forall_iff_forall_mem.mp ⟨rfl, rfl, rfl, rfl, rfl, rfl⟩

/-- No register's value depends on the key bytes, the digest, the command word, the latched counter or the request
(R67). -/
theorem readReg_hidden (r : Reg) (s : State) (keybuf : Vector Byte Config.keyMax) (digest : Vector Byte 20)
    (pcmd : Word) (clatch : DWord) (req : Option Request) :
    readReg r { s with keybuf := keybuf, digest := digest, pcmd := pcmd, clatch := clatch, req := req } =
      readReg r s := by
  cases r <;> rfl

/-- Settles O15, by `readReg_writeOnly` and `readReg_hidden`; irq reads IRQ_EN and DONE, which the two states share. -/
theorem readsDoNotDependOnHiddenState : Obligations.ReadsDoNotDependOnHiddenState := by
  refine ⟨readReg_writeOnly, fun s t r hst => ?_⟩
  rw [hst]
  exact ⟨(readReg_hidden r s ..).symm, rfl⟩

end Sys2Proof.Machine
end

section
/-! PROOFS. The statements about the decoder: the opcode table of R88, the reserved opcodes of R90, the decode procedure and
the illegal completion of R89. -/

namespace Sys2Proof

/-! ## The rows of R88's table, by opcode -/

/-- The mask of an opcode, by its operand class (R88). -/
def maskOf (op : BitVec 8) : Word :=
  if takesDig op then 0xFFFFE0FF else if takesKb op then 0xFF00EFFF else 0xFFFFEFFF

/-- The row of an opcode: its mask, and the word with this opcode and every other field 0 (R88). -/
def rowOf (op : BitVec 8) : OpRow := ⟨maskOf op, wordOf op 0 false 0⟩

theorem opcodeTable_eq_map : opcodeTable = namedOpcodes.map rowOf := by decide

theorem Instr.row_eq_rowOf (i : Instr) : i.row = rowOf i.op := by
  cases i <;> simp [Instr.row, Instr.op, rowOf, maskOf, takesDig, takesKb, wordOf]

theorem Instr.op_mem_namedOpcodes (i : Instr) : i.op ∈ namedOpcodes := (commandOf_some (commandOf_op i)).1

theorem Instr.row_mem_opcodeTable (i : Instr) : i.row ∈ opcodeTable := by
  rw [i.row_eq_rowOf, opcodeTable_eq_map]
  exact List.mem_map_of_mem i.op_mem_namedOpcodes

/-- A command whose opcode takes no DigitCount has none (R93). -/
theorem Instr.takesDig_or_dig_eq_zero (i : Instr) : takesDig i.op = true ∨ i.dig = 0 := by
  cases hd : takesDig i.op with
  | true => exact .inl rfl
  | false =>
    obtain ⟨-, -, -, hdig, -⟩ := commandOf_some (commandOf_op i)
    exact .inr (by simpa [hd] using hdig)

/-- A command whose opcode takes no key byte has none (R93). -/
theorem Instr.takesKb_or_kb_eq_zero (i : Instr) : takesKb i.op = true ∨ i.kb = 0 := by
  cases hk : takesKb i.op with
  | true => exact .inl rfl
  | false =>
    obtain ⟨-, -, -, -, hkb⟩ := commandOf_some (commandOf_op i)
    exact .inr (by simpa [hk] using hkb)

/-! ## Match and mask -/

theorem takesDig_eq_false_iff {op : BitVec 8} :
    takesDig op = false ↔ op ∉ [0x11#8, 0x12#8, 0x13#8, 0x20#8, 0x21#8] := by
  rw [takesDig, List.contains_eq_mem, decide_eq_false_iff_not]

theorem takesKb_eq_false_iff {op : BitVec 8} : takesKb op = false ↔ op ≠ 0x31 := beq_eq_false_iff_ne

/-- No opcode takes both operands (R88). -/
theorem takesKb_of_takesDig {op : BitVec 8} (h : takesDig op = true) : takesKb op = false := by
  rw [takesKb_eq_false_iff]
  rintro rfl
  exact absurd h (by decide)

/-- A word matches an opcode's row exactly when it has that opcode and its other fields are 0, except for Z and the operand
the opcode takes (R88). -/
theorem and_mask_rowOf_iff (w : Word) (op : BitVec 8) : w &&& (rowOf op).mask = (rowOf op).mtch ↔
    opField w = op ∧ rsv1Field w = 0 ∧ rsv2Field w = 0 ∧
      (takesDig op = true ∨ digField w = 0) ∧ (takesKb op = true ∨ kbField w = 0) := by
  change w &&& maskOf op = wordOf op 0 false 0 ↔ _
  cases hd : takesDig op with
  | true =>
    rw [maskOf, if_pos hd, and_digitMask_iff, takesKb_of_takesDig hd]
    tauto
  | false =>
    cases hk : takesKb op with
    | true =>
      simp only [maskOf, hd, hk, Bool.false_eq_true, if_false, if_true, and_keyByteMask_iff]
      tauto
    | false =>
      simp only [maskOf, hd, hk, Bool.false_eq_true, if_false, and_noOperandMask_iff]
      tauto

/-- A word that decodes matches its command's row. -/
theorem and_mask_of_decode {w : Word} {i : Instr} (h : decode w = .ok i) : w &&& i.row.mask = i.row.mtch := by
  obtain ⟨hop, -, hdig, hkb, hrsv1, hrsv2⟩ := decode_ok_fields h
  have hd : takesDig i.op = true ∨ digField w = 0 :=
    i.takesDig_or_dig_eq_zero.imp_right fun h0 => BitVec.eq_of_toNat_eq (hdig.symm.trans h0)
  have hk : takesKb i.op = true ∨ kbField w = 0 := i.takesKb_or_kb_eq_zero.imp_right hkb.symm.trans
  rw [i.row_eq_rowOf]
  exact (and_mask_rowOf_iff w i.op).mpr ⟨hop.symm, hrsv1, hrsv2, hd, hk⟩

/-- A word that matches a row of the table decodes to a command of that row. -/
theorem decode_of_and_mask {w : Word} {r : OpRow} (hr : r ∈ opcodeTable) (h : w &&& r.mask = r.mtch) :
    ∃ i, decode w = .ok i ∧ i.row = r := by
  rw [opcodeTable_eq_map] at hr
  obtain ⟨op, hnamed, rfl⟩ := List.mem_map.mp hr
  obtain ⟨rfl, hrsv1, hrsv2, hd, hk⟩ := (and_mask_rowOf_iff w op).mp h
  obtain ⟨i, hi, hop, -⟩ := commandOf_named (digField w).toNat (zField w) (kbField w) hnamed
  exact ⟨i, decode_of_fields hi hrsv1 hrsv2 hd hk, by rw [i.row_eq_rowOf, hop]⟩

end Sys2Proof

namespace Sys2Proof.Machine

open Sys2Proof.Machine.Spec

/-- Settles O23: `and_mask_of_decode` and `decode_of_and_mask`; the table's columns are its literals. -/
theorem decodeAgreesWithMatchAndMask : Obligations.DecodeAgreesWithMatchAndMask :=
  ⟨fun _ i h => ⟨i.row_mem_opcodeTable, and_mask_of_decode h⟩, fun _ _ => decode_of_and_mask, rfl, rfl, rfl⟩

/-! ## The decode procedure -/

/-- At an opcode of R87 the opcode map names R87's command. -/
theorem commandOf_eq_commandNamed {op : BitVec 8} (d : Nat) (z : Bool) (kb : Byte) (h : op ∈ opcodes) :
    commandOf op d z kb = some (commandNamed op d z kb) :=
  namedOpcodes_cases (P := fun op => commandOf op d z kb = some (commandNamed op d z kb)) h
    rfl rfl rfl rfl rfl rfl rfl rfl rfl rfl rfl rfl

/-- The decode procedure as R89's checks in R89's order. -/
theorem decode_eq_checks (w : Word) : decode w =
    if opField w ∉ opcodes then .error .reservedOpcode
    else if rsv1Field w ≠ 0 ∨ rsv2Field w ≠ 0 then .error .reservedField
    else if opField w ∉ [0x11#8, 0x12#8, 0x13#8, 0x20#8, 0x21#8] ∧ digField w ≠ 0 then .error .reservedField
    else if opField w ≠ 0x31 ∧ kbField w ≠ 0 then .error .reservedField
    else .ok (commandNamed (opField w) (digField w).toNat (zField w) (kbField w)) := by
  unfold decode
  by_cases hop : opField w ∈ opcodes
  · rw [if_neg (not_not_intro hop), commandOf_eq_commandNamed _ _ _ hop]
    simp only [takesDig_eq_false_iff, takesKb_eq_false_iff]
  · rw [if_pos hop, commandOf_none.mpr hop]

/-- The reserved-opcode check fails exactly at the opcodes outside R87 (R90). -/
theorem decode_eq_reservedOpcode_iff (w : Word) : decode w = .error .reservedOpcode ↔ opField w ∉ opcodes := by
  rw [decode_eq_checks]
  by_cases hop : opField w ∈ opcodes
  · rw [if_neg (not_not_intro hop)]
    refine iff_of_false ?_ (not_not_intro hop)
    split_ifs <;> simp
  · exact iff_of_true (if_pos hop) hop

/-- The words that decode to NOP are its two encodings (R156). -/
theorem decode_eq_nop {w : Word} {z : Bool} (h : decode w = .ok (.nop z)) : w = wordOf 0x00 0 z 0 := by
  obtain ⟨hop, hz, hdig, hkb, hrsv1, hrsv2⟩ := decode_ok_fields h
  have hdig0 : digField w = 0 := BitVec.eq_of_toNat_eq hdig.symm
  rw [← wordOf_fields hrsv1 hrsv2, ← hop, ← hz, ← hkb, hdig0]
  rfl

/-- No opcode of R87 is above 0x3F. -/
theorem ofNat_not_mem_opcodes {n : Nat} (hlo : 0x40 ≤ n) (hhi : n < 256) : BitVec.ofNat 8 n ∉ opcodes := by
  intro hmem
  have hbound : ∀ op ∈ opcodes, op.toNat < 0x40 := by decide
  have hn : n % 2 ^ 8 < 0x40 := hbound _ hmem
  omega

/-- Of the 256 values of OP, 244 name no command: 52 below 0x40 and all 192 from there on (R90). -/
theorem reservedOpcodes_length :
    ((List.range 256).filter fun n => BitVec.ofNat 8 n ∉ opcodes).length = 244 := by
  have hall : ∀ n ∈ (List.range 192).map (0x40 + ·), decide (BitVec.ofNat 8 n ∉ opcodes) = true := by
    intro n hn
    obtain ⟨k, hk, rfl⟩ := List.mem_map.mp hn
    have hk' := List.mem_range.mp hk
    exact decide_eq_true (ofNat_not_mem_opcodes (by omega) (by omega))
  have hbelow : ((List.range 0x40).filter fun n => BitVec.ofNat 8 n ∉ opcodes).length = 52 := by decide
  rw [show (256 : Nat) = 0x40 + 192 from rfl, List.range_add, List.filter_append, List.length_append, hbelow,
    List.filter_eq_self.mpr hall, List.length_map, List.length_range]

/-- Settles O24: the reserved-opcode check, the count over the 256 opcodes, and `decode_eq_nop` at both values of Z. -/
theorem reservedOpcodesAreIllegal : Obligations.ReservedOpcodesAreIllegal := by
  refine ⟨decode_eq_reservedOpcode_iff, reservedOpcodes_length, fun w z h => ?_⟩
  rw [decode_eq_nop h]
  cases z with
  | false => exact .inl rfl
  | true => exact .inr rfl

/-! ## The illegal completion -/

/-- The completion procedure is R176's, field by field. -/
theorem finish_eq_ended (hmac z : Bool) (e : BitVec 4) (i : BitVec 8) (s : State) :
    finish hmac z e i s = ended hmac z e i s := by
  cases hmac <;> cases z <;> rfl

/-- An illegal word completes with IllegalCommand and the sub-cause of R89; Z is its bit 12. -/
theorem rejectIllegal_eq_ended (e : Illegal) (s : State) : rejectIllegal e s =
    ended false (s.pcmd.getLsbD 12) 3 (match e with | .reservedOpcode => 1 | .reservedField => 2) s := by
  rw [rejectIllegal_eq_finish, finish_eq_ended]
  cases e <;> rfl

/-- Settles O25: `decode_eq_checks`, and the ENGINE's turn with an illegal word, which is `rejectIllegal`. -/
theorem decodeProcedureAndIllegalCompletion : Obligations.DecodeProcedureAndIllegalCompletion := by
  refine ⟨decode_eq_checks, fun s e rest hsched hpend hillegal => ?_⟩
  have hturn : engineStep (after rest s) = .next (rejectIllegal e (after rest s)) := engineStep_error hpend hillegal
  rw [step_cons hsched]
  exact hturn.trans (congrArg _ (rejectIllegal_eq_ended e (after rest s)))

end Sys2Proof.Machine
end

section
/-! PROOFS. The statements about the counter: the derivation function CD (40_counter.md R100, R102, R103) and the command
DERIVE (R101). -/

namespace Sys2Proof.Machine

open Sys2Proof.Machine.Spec

/-! ## The derivation function -/

/-- A derived counter passed both checks, and is the quotient of the integers (R100, R102). -/
theorem deriveCounter_eq_ok {ts t0 step c : DWord} (h : deriveCounter ts t0 step = .ok c) :
    step ≠ 0 ∧ t0.toNat ≤ ts.toNat ∧ c.toNat = (ts.toNat - t0.toNat) / step.toNat := by
  rw [deriveCounter_cases] at h
  split_ifs at h with hstep hbefore
  cases h
  exact ⟨hstep, Nat.le_of_not_lt hbefore, quotient_toNat ts t0 step⟩

/-- A counter exists exactly when both checks pass (R100). -/
theorem exists_deriveCounter_eq_ok_iff (ts t0 step : DWord) :
    (∃ c, deriveCounter ts t0 step = .ok c) ↔ step ≠ 0 ∧ t0.toNat ≤ ts.toNat := by
  constructor
  · rintro ⟨c, hc⟩
    obtain ⟨hstep, hle, -⟩ := deriveCounter_eq_ok hc
    exact ⟨hstep, hle⟩
  · rintro ⟨hstep, hle⟩
    exact ⟨_, deriveCounter_ok hstep hle⟩

/-- Settles O46: the quotient by a positive STEP is at most the difference, and the remainder is below STEP. -/
theorem counterDivisionIsExact : Obligations.CounterDivisionIsExact := by
  refine ⟨fun ts t0 step c h => ?_, exists_deriveCounter_eq_ok_iff⟩
  obtain ⟨hstep, hle, hc⟩ := deriveCounter_eq_ok h
  have hpos : 0 < step.toNat := Nat.pos_of_ne_zero (BitVec.toNat_ne_iff_ne.mpr hstep)
  rw [hc]
  exact ⟨hle, hpos, Nat.div_le_self .., Nat.div_mul_le_self .., by rw [mul_comm]; exact Nat.lt_mul_div_succ _ hpos⟩

/-- Settles O45: both counters are quotients by one STEP, and the differences are in the order of the times. -/
theorem counterIsMonotonic : Obligations.CounterIsMonotonic := by
  intro ts ts' t0 step hstep h0 hle
  refine ⟨_, _, deriveCounter_ok hstep h0, deriveCounter_ok hstep (h0.trans hle), ?_⟩
  rw [quotient_toNat, quotient_toNat]
  exact Nat.div_le_div_right (Nat.sub_le_sub_right hle _)

/-! ## The command -/

/-- A word whose opcode names a command, with a non-zero reserved field or an operand field the opcode does not take, is
illegal (R88, R89). -/
theorem reservedFieldsIllegal_of_named {op : BitVec 8} (hop : op ∈ namedOpcodes) :
    ReservedFieldsIllegal op (takesDig op) (takesKb op) := by
  rintro w rfl hfields
  obtain ⟨i, hi, -⟩ := commandOf_named (digField w).toNat (zField w) (kbField w) hop
  exact decode_reservedField hi hfields

/-- DERIVE with no counter fails with CD's error and keeps CTR (R101). -/
theorem exec_derive_of_error {s : State} {e : CmdError} (z : Bool)
    (h : deriveCounter s.ts s.t0 s.stepSize = .error e) :
    exec (.derive z) s = .next (ended false z e.errCode e.infoCode s) := by
  rw [exec, execDerive, h, ← finish_eq_ended]
  rfl

/-- DERIVE with a counter writes it to CTR and completes (R101). -/
theorem exec_derive_of_ok {s : State} {c : DWord} (z : Bool) (h : deriveCounter s.ts s.t0 s.stepSize = .ok c) :
    exec (.derive z) s = .next (ended false z 0 0 { s with ctr := c }) := by
  rw [exec, execDerive, h, ← finish_eq_ended]
  rfl

/-- DERIVE on every path: CD's checks in order, then the quotient (R100, R101). -/
theorem exec_derive (z : Bool) (s : State) : exec (.derive z) s = .next (
    if s.stepSize = 0 then ended false z 1 1 s
    else if s.ts.toNat < s.t0.toNat then ended false z 1 2 s
    else ended false z 0 0
      { s with ctr := BitVec.ofNat 64 ((s.ts.toNat - s.t0.toNat) / s.stepSize.toNat) }) := by
  split_ifs with hstep hbefore
  · exact exec_derive_of_error z (hstep ▸ deriveCounter_stepZero s.ts s.t0)
  · exact exec_derive_of_error z (deriveCounter_tsBeforeT0 hstep hbefore)
  · exact exec_derive_of_ok z (deriveCounter_ok hstep (Nat.le_of_not_lt hbefore))

/-- Settles O32: `exec_derive`, the two words of DERIVE, and the fields its opcode does not take. -/
theorem deriveDividesTheDifference : Obligations.DeriveDividesTheDifference :=
  ⟨exec_derive, by decide, by decide, reservedFieldsIllegal_of_named (op := 0x01) (by decide)⟩

end Sys2Proof.Machine
end

section
/-! PROOFS. The statements about truncation, reduction and decimal formatting as functions (41_hotp_core.md R111,
R114, R116, R120), and their values in the statements' integers. -/

namespace Sys2Proof.Machine

open Sys2Proof.Machine.Spec

/-! ## Truncation -/

/-- A byte of a byte string, as a number (R9). -/
theorem byteNat_eq_toNat {n i : Nat} (b : Vector Byte n) (h : i < n) : byteNat b i = (b[i]).toNat := by
  simp [byteNat, h]

/-- The offset is the low nibble of the last byte (R111). -/
theorem dynOffset_val (dg : Vector Byte 20) : (dynOffset dg).val = byteNat dg 19 % 16 := by
  rw [byteNat_eq_toNat dg (by decide)]
  rfl

/-- `BE32` of the bytes as numbers (R9). -/
theorem be32_toNat_eq_byteNat (dg : Vector Byte 20) (i : Fin 16) :
    (be32 dg i).toNat = byteNat dg i.val * 2 ^ 24 + byteNat dg (i.val + 1) * 2 ^ 16 +
      byteNat dg (i.val + 2) * 2 ^ 8 + byteNat dg (i.val + 3) := by
  rw [be32_toNat, byteNat_eq_toNat dg (by omega), byteNat_eq_toNat dg (by omega), byteNat_eq_toNat dg (by omega),
    byteNat_eq_toNat dg (by omega)]

/-- `BE32` reads the four bytes at the offset and no other (R9). -/
theorem be32_congr {dg dg' : Vector Byte 20} {i : Fin 16}
    (h : ∀ j : Fin 4, byteNat dg (i.val + j.val) = byteNat dg' (i.val + j.val)) : be32 dg i = be32 dg' i := by
  have h0 : byteNat dg i.val = byteNat dg' i.val := h 0
  have h1 : byteNat dg (i.val + 1) = byteNat dg' (i.val + 1) := h 1
  have h2 : byteNat dg (i.val + 2) = byteNat dg' (i.val + 2) := h 2
  have h3 : byteNat dg (i.val + 3) = byteNat dg' (i.val + 3) := h 3
  apply BitVec.eq_of_toNat_eq
  rw [be32_toNat_eq_byteNat, be32_toNat_eq_byteNat, h0, h1, h2, h3]

/-- Settles O48: one nibble gives one offset, at most 15, and `be32_congr` its four bytes. -/
theorem truncationReadsOnlyItsWindow : Obligations.TruncationReadsOnlyItsWindow := by
  refine fun dg dg' => ⟨dynOffset_val dg, by omega, fun hnibble hbytes => ?_⟩
  have hoffset : dynOffset dg = dynOffset dg' := Fin.ext (by rw [dynOffset_val, dynOffset_val, hnibble])
  rw [dynTruncate, dynTruncate, ← hoffset, be32_congr hbytes]

/-- The value of truncation is the statements' (R112). -/
theorem dynTruncate_toNat_eq_truncated (dg : Vector Byte 20) : (dynTruncate dg).toNat = truncated dg := by
  rw [dynTruncate_toNat, be32_toNat_eq_byteNat, dynOffset_val]
  rfl

theorem dynTruncate_eq_ofNat (dg : Vector Byte 20) : dynTruncate dg = BitVec.ofNat 32 (truncated dg) := by
  rw [← dynTruncate_toNat_eq_truncated, BitVec.ofNat_toNat, BitVec.setWidth_eq]

/-! ## Reduction -/

theorem mem_digitSetOf_true {d : Nat} : d ∈ digitSetOf true ↔ 6 ≤ d ∧ d ≤ 10 := by
  simp only [digitSetOf, if_true, List.mem_cons, List.not_mem_nil, or_false]
  omega

/-- Reducing to more digits first loses nothing (R114 d). -/
theorem reduceDigits_reduceDigits (b : Word) {d₁ d₂ : Nat} (h : d₁ ≤ d₂) :
    reduceDigits (reduceDigits b d₂) d₁ = reduceDigits b d₁ := by
  apply BitVec.eq_of_toNat_eq
  simp only [reduceDigits_toNat]
  exact Nat.mod_mod_of_dvd _ (Nat.pow_dvd_pow 10 h)

/-- A word below the modulus is its own remainder (R114 c). -/
theorem reduceDigits_of_lt {b : Word} {d : Nat} (h : b.toNat < 10 ^ d) : reduceDigits b d = b :=
  BitVec.eq_of_toNat_eq (by rw [reduceDigits_toNat, Nat.mod_eq_of_lt h])

/-- Settles O47: the remainder's bounds are Euclid's, and both 10^10 < 2^34 and 2^31 <= 10^10 are evaluated. -/
theorem reductionLaws : Obligations.ReductionLaws := by
  refine ⟨by decide, fun b hb => ⟨fun d _ => ?_, ?_, fun d₁ _ d₂ _ hle => reduceDigits_reduceDigits b hle⟩⟩
  · exact ⟨reduceDigits_toNat b d, reduceDigits_lt b d, reduceDigits_le b d, (reduceDigits_le b d).trans_lt hb⟩
  · exact reduceDigits_of_lt (hb.trans (by decide))

/-! ## The characters of a code -/

/-- The characters of a code, as a list (R116, R119). -/
theorem codeBytes_take {d : Nat} (n : Nat) (h : d ≤ 12) :
    (codeBytes n d).toList.take d = (List.range d).map (decChar n d) := by
  apply List.ext_getElem
  · simpa using h
  · intro i hi _
    have hid : i < d := by simp at hi; omega
    simp [hid]

/-- A character below the modulus does not see the reduction (R114, R116). -/
theorem decChar_mod (n : Nat) {m k i : Nat} (h : k - 1 - i < m) : decChar (n % 10 ^ m) k i = decChar n k i := by
  apply BitVec.eq_of_toNat_eq
  obtain ⟨e, rfl⟩ : ∃ e, m = k - 1 - i + (e + 1) := Nat.exists_eq_add_of_lt h
  rw [decChar_toNat, decChar_toNat, pow_add, Nat.mod_mul_right_div_self,
    Nat.mod_mod_of_dvd _ (dvd_pow_self 10 e.succ_ne_zero)]

/-- A character is set by its distance from the last one (R116). -/
theorem decChar_shift (n : Nat) {d₁ d₂ : Nat} (i : Nat) (h : d₁ ≤ d₂) :
    decChar n d₂ (d₂ - d₁ + i) = decChar n d₁ i := by
  rw [decChar, decChar, show d₂ - 1 - (d₂ - d₁ + i) = d₁ - 1 - i by omega]

/-- Settles O49: both codes hold the decimal characters of `b` itself, which `decChar_shift` lines up from the end. -/
theorem shorterCodeIsSuffix : Obligations.ShorterCodeIsSuffix := by
  intro b d₁ d₂ _ h₁ h₂ hle
  rw [mem_digitSetOf_true] at h₁ h₂
  rw [codeBytes_take _ (by omega), codeBytes_take _ (by omega), reduceDigits_toNat, reduceDigits_toNat]
  apply List.ext_getElem
  · simp; omega
  · intro i hi _
    have hid : i < d₁ := by simpa using hi
    simp only [List.getElem_drop, List.getElem_map, List.getElem_range]
    rw [decChar_mod b.toNat (by omega), decChar_mod b.toNat (by omega), decChar_shift b.toNat i hle]

/-- One more character at the end is one more decimal digit. -/
theorem spelled_concat (cs : List Byte) (c : Byte) : spelled (cs ++ [c]) = 10 * spelled cs + (c.toNat - 0x30) := by
  simp [spelled]

/-- All characters but the last are those of the number without its last digit (R116). -/
theorem decChar_succ (n : Nat) {d i : Nat} (h : i < d) : decChar n (d + 1) i = decChar (n / 10) d i := by
  rw [decChar, decChar, Nat.div_div_eq_div_mul, ← pow_succ', show d - 1 - i + 1 = d + 1 - 1 - i by omega]

/-- Read from the left, the characters of `DEC(n, d)` give the last d digits of n. -/
theorem spelled_decChars (n d : Nat) : spelled ((List.range d).map (decChar n d)) = n % 10 ^ d := by
  induction d generalizing n with
  | zero => simp [spelled, Nat.mod_one]
  | succ d ih =>
    have hinit : (List.range d).map (decChar n (d + 1)) = (List.range d).map (decChar (n / 10) d) :=
      List.map_congr_left fun i hi => decChar_succ n (List.mem_range.mp hi)
    have hlast : (decChar n (d + 1) d).toNat - 0x30 = n % 10 := by
      rw [decChar_toNat, show d + 1 - 1 - d = 0 by omega, pow_zero, Nat.div_one, Nat.add_sub_cancel_left]
    rw [List.range_succ, List.map_append, List.map_singleton, spelled_concat, hinit, ih, hlast, pow_succ', Nat.mod_mul,
      Nat.add_comm]

/-- Settles O50: the code's characters are `spelled_decChars`'s, and n has no more than d digits. -/
theorem codeSpellsTheNumber : Obligations.CodeSpellsTheNumber := by
  intro n d hd hn
  rw [mem_digitSetOf_true] at hd
  rw [codeBytes_take n (by omega), spelled_decChars, Nat.mod_eq_of_lt hn]

end Sys2Proof.Machine
end

section
/-! PROOFS. The statements about the truncation commands TRUNC, REDUCE, FORMAT and DTF (41_hotp_core.md R113, R115,
R117, R118), HOTP (R135, R136) and the response step (R132). -/

namespace Sys2Proof.Machine

open Sys2Proof.Machine.Spec

/-! ## Completion, in the statements' words -/

theorem complete_eq_ended (hmac z : Bool) (s : State) : complete hmac z s = ended hmac z 0 0 s :=
  finish_eq_ended ..

theorem raise_eq_ended (hmac z : Bool) (e : CmdError) (s : State) :
    raise hmac z e s = ended hmac z e.errCode e.infoCode s := finish_eq_ended ..

/-- A command that would make a code fails with none (R119). -/
theorem raiseNoCode_eq_ended (hmac z : Bool) (e : CmdError) (s : State) :
    raiseNoCode hmac z e s = ended hmac z e.errCode e.infoCode (noCode s) := finish_eq_ended ..

/-- A digest's results are the statements' (R118, R136). -/
theorem codeFromDigest_eq_withCode (dg : Vector Byte 20) (d : Nat) (s : State) :
    codeFromDigest dg d s = withCode dg d s := by
  have hred : reduceDigits (dynTruncate dg) d = BitVec.ofNat 32 (truncated dg % 10 ^ d) := by
    rw [reduceDigits, dynTruncate_toNat_eq_truncated]
  have hcode : codeBytes (reduceDigits (dynTruncate dg) d).toNat d = codeOf (truncated dg % 10 ^ d) d := by
    rw [reduceDigits_toNat, dynTruncate_toNat_eq_truncated]
    rfl
  rw [codeFromDigest, writeCode, hcode, hred, dynTruncate_eq_ofNat]
  rfl

/-- The message of a request is the statements' (R9, R131). -/
theorem be8_eq_message (c : DWord) : be8 c = message c := by
  unfold be8 message
  congr 1
  funext j
  apply BitVec.eq_of_toNat_eq
  rw [BitVec.extractLsb'_toNat, BitVec.toNat_ofNat, Nat.shiftRight_eq_div_pow]

/-! ## TRUNC -/

theorem exec_trunc (z : Bool) (s : State) : exec (.trunc z) s =
    .next (ended false z 0 0 { s with bin := BitVec.ofNat 32 (truncated s.digest) }) := by
  rw [exec, execTrunc, complete_eq_ended, dynTruncate_eq_ofNat]

/-- Settles O33: `exec_trunc`, the two words of TRUNC, and the fields its opcode does not take. -/
theorem truncExtractsBinaryCode : Obligations.TruncExtractsBinaryCode :=
  ⟨exec_trunc, by decide, by decide, reservedFieldsIllegal_of_named (op := 0x10) (by decide)⟩

/-! ## REDUCE -/

theorem exec_reduce_of_supported {d : Nat} (z : Bool) (s : State) (h : Supported d) : exec (.reduce d z) s =
    .next (ended false z 0 0 { s with num := BitVec.ofNat 32 (s.bin.toNat % 10 ^ d) }) := by
  rw [exec, execReduce, if_pos (validDigits_iff.mpr h), complete_eq_ended, reduceDigits]

theorem exec_reduce_of_unsupported {d : Nat} (z : Bool) (s : State) (h : ¬ Supported d) :
    exec (.reduce d z) s = .next (ended false z 1 3 s) := by
  rw [exec, execReduce, if_neg (mt validDigits_iff.mp h), raise_eq_ended]
  rfl

/-- Settles O34: REDUCE's two paths, its two words, and the fields its opcode does not take. -/
theorem reduceTakesTheRemainder : Obligations.ReduceTakesTheRemainder :=
  ⟨fun _ z s => ⟨exec_reduce_of_supported z s, exec_reduce_of_unsupported z s⟩, by decide, by decide,
    reservedFieldsIllegal_of_named (op := 0x11) (by decide)⟩

/-! ## FORMAT -/

theorem exec_format_of_lt {d : Nat} (z : Bool) (s : State) (h : Supported d) (hlt : s.num.toNat < 10 ^ d) :
    exec (.format d z) s =
      .next (ended false z 0 0 { s with code := codeOf s.num.toNat d, codelen := BitVec.ofNat 4 d }) := by
  rw [exec, execFormat, if_pos (validDigits_iff.mpr h), if_neg (Nat.not_le.mpr hlt), complete_eq_ended]
  rfl

theorem exec_format_of_le {d : Nat} (z : Bool) (s : State) (h : Supported d) (hle : 10 ^ d ≤ s.num.toNat) :
    exec (.format d z) s = .next (ended false z 1 4 (noCode s)) := by
  rw [exec, execFormat, if_pos (validDigits_iff.mpr h), if_pos hle, raiseNoCode_eq_ended]
  rfl

theorem exec_format_of_unsupported {d : Nat} (z : Bool) (s : State) (h : ¬ Supported d) :
    exec (.format d z) s = .next (ended false z 1 3 (noCode s)) := by
  rw [exec, execFormat, if_neg (mt validDigits_iff.mp h), raiseNoCode_eq_ended]
  rfl

/-- Settles O35: FORMAT's three paths, its two words, and the fields its opcode does not take. -/
theorem formatWritesDecimalDigits : Obligations.FormatWritesDecimalDigits :=
  ⟨fun _ z s => ⟨exec_format_of_lt z s, exec_format_of_le z s, exec_format_of_unsupported z s⟩,
    by decide, by decide, reservedFieldsIllegal_of_named (op := 0x12) (by decide)⟩

/-! ## DTF -/

theorem exec_dtf_of_supported {d : Nat} (z : Bool) (s : State) (h : Supported d) :
    exec (.dtf d z) s = .next (ended false z 0 0 (withCode s.digest d s)) := by
  rw [exec, execDtf, if_pos (validDigits_iff.mpr h), complete_eq_ended, codeFromDigest_eq_withCode]

theorem exec_dtf_of_unsupported {d : Nat} (z : Bool) (s : State) (h : ¬ Supported d) :
    exec (.dtf d z) s = .next (ended false z 1 3 (noCode s)) := by
  rw [exec, execDtf, if_neg (mt validDigits_iff.mp h), raiseNoCode_eq_ended]
  rfl

/-- Settles O36: DTF's two paths, its two words, and the fields its opcode does not take. -/
theorem dtfMakesTheCodeOfTheDigest : Obligations.DtfMakesTheCodeOfTheDigest :=
  ⟨fun _ z s => ⟨exec_dtf_of_supported z s, exec_dtf_of_unsupported z s⟩, by decide, by decide,
    reservedFieldsIllegal_of_named (op := 0x13) (by decide)⟩

/-! ## HOTP, first phase -/

/-- The state that waits for the HMAC of the key held and a counter, as the statements write it (R131, R135). -/
def requested (c : DWord) (s : State) : State :=
  { s with clatch := c, req := some { key := keyHeld s, msg := message c }, eng := .wait }

theorem issueHmac_eq_requested (c : DWord) (s : State) : issueHmac c s = requested c s := by
  rw [issueHmac, be8_eq_message]
  rfl

theorem exec_hotp_of_key {d : Nat} (z : Bool) (s : State) (h : Supported d) (hkey : s.keylen ≠ 0) :
    exec (.hotp d z) s = .next (requested s.ctr s) := by
  rw [exec, execHotp, if_pos (validDigits_iff.mpr h), if_neg hkey, issueHmac_eq_requested]

theorem exec_hotp_of_no_key {d : Nat} (z : Bool) (s : State) (h : Supported d) (hkey : s.keylen = 0) :
    exec (.hotp d z) s = .next (ended true z 2 1 (noCode s)) := by
  rw [exec, execHotp, if_pos (validDigits_iff.mpr h), if_pos hkey, raiseNoCode_eq_ended]
  rfl

theorem exec_hotp_of_unsupported {d : Nat} (z : Bool) (s : State) (h : ¬ Supported d) :
    exec (.hotp d z) s = .next (ended true z 1 3 (noCode s)) := by
  rw [exec, execHotp, if_neg (mt validDigits_iff.mp h), raiseNoCode_eq_ended]
  rfl

/-- Settles O37: HOTP's three paths, its two words, and the fields its opcode does not take. -/
theorem hotpIssuesItsRequest : Obligations.HotpIssuesItsRequest :=
  ⟨fun _ z s => ⟨exec_hotp_of_key z s, exec_hotp_of_no_key z s, exec_hotp_of_unsupported z s⟩,
    by decide, by decide, reservedFieldsIllegal_of_named (op := 0x20) (by decide)⟩

/-! ## The response step -/

/-- HMACU's turn with a request outstanding is the second phase of the command in PCMD (R132). -/
theorem step_hmacu_wait {s : State} {ok : Bool} {r : Request} {rest : List Turn} (hsched : s.sched = .hmacu ok :: rest)
    (hwait : s.eng = .wait) (hreq : s.req = some r) :
    step s = .next (respond (if ok then .ok (Config.hmacFn r.key r.msg) else .fail) (after rest s)) := by
  have hturn : hmacuStep ok (after rest s) = respond (hmacResponse ok r) (after rest s) :=
    hmacuStep_wait ok hwait hreq
  rw [step_cons hsched]
  exact congrArg _ hturn

/-- Settles O27: `step_hmacu_wait`, and PCMD is read in a state that has it from `s`. -/
theorem responseRunsTheWaitingCommand : Obligations.ResponseRunsTheWaitingCommand := by
  intro s ok r d z rest hsched hwait hreq
  have hstep := step_hmacu_wait hsched hwait hreq
  refine ⟨fun hcmd => ?_, fun hcmd => ?_⟩
  · rw [hstep, respond_hotp (s := after rest s) _ hcmd]
  · rw [hstep, respond_totp (s := after rest s) _ hcmd]

/-! ## HOTP, second phase -/

/-- A HOTP answered OK leaves the digest's code and no digest (R136). -/
theorem hotpRespond_ok (d : Nat) (z : Bool) (dg : Vector Byte 20) (s : State) :
    hotpRespond d z (.ok dg) s = ended true z 0 0 (withCode dg d s) := by
  rw [hotpRespond, complete_eq_ended, codeFromDigest_eq_withCode]
  rfl

/-- A HOTP answered FAIL leaves no code (R136). -/
theorem hotpRespond_fail (d : Nat) (z : Bool) (s : State) :
    hotpRespond d z .fail s = ended true z 2 2 (noCode s) := by
  rw [hotpRespond, raiseNoCode_eq_ended]
  rfl

/-- Settles O38: the response step, then the second phase's two answers. -/
theorem hotpConsumesTheResponse : Obligations.HotpConsumesTheResponse := by
  intro s r d z rest hwait hreq hcmd
  refine ⟨fun hsched => ?_, fun hsched => ?_⟩
  · obtain ⟨hhotp, -⟩ := responseRunsTheWaitingCommand s true r d z rest hsched hwait hreq
    rw [hhotp hcmd, if_pos rfl, hotpRespond_ok]
  · obtain ⟨hhotp, -⟩ := responseRunsTheWaitingCommand s false r d z rest hsched hwait hreq
    rw [hhotp hcmd, if_neg Bool.false_ne_true, hotpRespond_fail]

/-! ## HOTP, both phases -/

/-- The ENGINE's turn with a pending command is `exec` of it (R177). -/
theorem step_engine_pend {s : State} {i : Instr} {rest : List Turn} (hsched : s.sched = .engine :: rest)
    (hpend : s.eng = .pend) (hcmd : decode s.pcmd = .ok i) : step s = exec i (after rest s) := by
  have hturn : engineStep (after rest s) = exec i (after rest s) := engineStep_ok hpend hcmd
  rw [step_cons hsched]
  exact hturn

/-- Settles O59: the ENGINE's turn issues the request, which HMACU's turn answers; the completion erases what the first
phase wrote. -/
theorem hotpGivesTheCodeOfItsHmac : Obligations.HotpGivesTheCodeOfItsHmac := by
  intro s d z rest hd hkey hpend hcmd hsched
  have hissue : step s = .next (requested s.ctr (after (.hmacu true :: rest) s)) :=
    (step_engine_pend hsched hpend hcmd).trans (exec_hotp_of_key z _ hd hkey)
  obtain ⟨hanswer, -⟩ :=
    hotpConsumesTheResponse (requested s.ctr (after (.hmacu true :: rest) s)) _ d z rest rfl rfl hcmd
  exact ⟨_, hissue, hanswer rfl⟩

end Sys2Proof.Machine
end

section
/-! PROOFS. The decoder reads back a command's word (30_encoding.md R89, R93). -/

namespace Sys2Proof

/-- The word of a well-formed command decodes to the command (R89, R93). -/
theorem decode_encode {i : Instr} (h : i.wf = true) : decode (encode i) = .ok i := by
  have hdig := Instr.dig_lt_of_wf h
  have htoNat : (BitVec.ofNat 4 i.dig).toNat = i.dig := Nat.mod_eq_of_lt hdig
  have htakesDig : takesDig i.op = true ∨ BitVec.ofNat 4 i.dig = 0 := by
    cases i <;> simp [takesDig, Instr.op, Instr.dig]
  have htakesKb : takesKb i.op = true ∨ i.kb = 0 := by cases i <;> simp [takesKb, Instr.op, Instr.kb]
  rw [encode_eq_wordOf hdig]
  exact decode_of_fields (by simp [htoNat, commandOf_op]) (by simp) (by simp) (by simpa using htakesDig)
    (by simpa using htakesKb)

end Sys2Proof
end

section
/-! PROOFS. The statements about the command TOTP: its two phases (42_totp.md R140, R141) and the
composition law (R142). -/

namespace Sys2Proof.Machine

open Sys2Proof.Machine.Spec

/-! ## TOTP, first phase -/

theorem exec_totp_of_unsupported {d : Nat} (z : Bool) (s : State) (h : ¬ Supported d) :
    exec (.totp d z) s = .next (ended true z 1 3 (noCode s)) := by
  rw [exec, execTotp, if_neg (mt validDigits_iff.mp h), raiseNoCode_eq_ended]
  rfl

/-- A failure of the counter derivation is reported unchanged (R140). -/
theorem exec_totp_of_error {d : Nat} {s : State} {e : CmdError} (z : Bool) (h : Supported d)
    (hc : deriveCounter s.ts s.t0 s.stepSize = .error e) :
    exec (.totp d z) s = .next (ended true z e.errCode e.infoCode (noCode s)) := by
  rw [exec, execTotp, if_pos (validDigits_iff.mpr h), hc, ← raiseNoCode_eq_ended]

/-- With a counter but no key, TOTP fails with KEY_EMPTY (R140). -/
theorem exec_totp_of_no_key {d : Nat} {s : State} {c : DWord} (z : Bool) (h : Supported d)
    (hc : deriveCounter s.ts s.t0 s.stepSize = .ok c) (hkey : s.keylen = 0) :
    exec (.totp d z) s = .next (ended true z 2 1 (noCode s)) := by
  rw [exec, execTotp, if_pos (validDigits_iff.mpr h), hc]
  dsimp only
  rw [if_pos hkey, raiseNoCode_eq_ended]
  rfl

/-- With a counter and a key, TOTP requests the HMAC of the derived counter (R140). -/
theorem exec_totp_of_key {d : Nat} {s : State} {c : DWord} (z : Bool) (h : Supported d)
    (hc : deriveCounter s.ts s.t0 s.stepSize = .ok c) (hkey : s.keylen ≠ 0) :
    exec (.totp d z) s = .next (requested c s) := by
  rw [exec, execTotp, if_pos (validDigits_iff.mpr h), hc]
  dsimp only
  rw [if_neg hkey, issueHmac_eq_requested]

/-- TOTP with a supported DigitCount: CD's checks in order, then the key's, then the request (R140). -/
theorem exec_totp_of_supported {d : Nat} (z : Bool) (s : State) (h : Supported d) : exec (.totp d z) s = .next (
    if s.stepSize = 0 then ended true z 1 1 (noCode s)
    else if s.ts.toNat < s.t0.toNat then ended true z 1 2 (noCode s)
    else if s.keylen = 0 then ended true z 2 1 (noCode s)
    else requested (BitVec.ofNat 64 ((s.ts.toNat - s.t0.toNat) / s.stepSize.toNat)) s) := by
  split_ifs with hstep hbefore hkey
  · exact exec_totp_of_error z h (hstep ▸ deriveCounter_stepZero s.ts s.t0)
  · exact exec_totp_of_error z h (deriveCounter_tsBeforeT0 hstep hbefore)
  · exact exec_totp_of_no_key z h (deriveCounter_ok hstep (Nat.le_of_not_lt hbefore)) hkey
  · exact exec_totp_of_key z h (deriveCounter_ok hstep (Nat.le_of_not_lt hbefore)) hkey

/-- Settles O39: TOTP's paths by its DigitCount, its two words, and the fields its opcode does not take. -/
theorem totpIssuesItsRequest : Obligations.TotpIssuesItsRequest :=
  ⟨fun _ z s => ⟨exec_totp_of_unsupported z s, exec_totp_of_supported z s⟩, by decide, by decide,
    reservedFieldsIllegal_of_named (op := 0x21) (by decide)⟩

/-! ## TOTP, second phase -/

/-- A TOTP answered OK leaves the digest's code, no digest, and the latched counter in CTR (R141). -/
theorem totpRespond_ok (d : Nat) (z : Bool) (dg : Vector Byte 20) (s : State) :
    totpRespond d z (.ok dg) s = ended true z 0 0 { withCode dg d s with ctr := s.clatch } := by
  rw [totpRespond, complete_eq_ended, codeFromDigest_eq_withCode]
  rfl

/-- A TOTP answered FAIL leaves no code, and keeps CTR (R141). -/
theorem totpRespond_fail (d : Nat) (z : Bool) (s : State) :
    totpRespond d z .fail s = ended true z 2 2 (noCode s) := by
  rw [totpRespond, raiseNoCode_eq_ended]
  rfl

/-- Settles O40: the response step, then the second phase's two answers. -/
theorem totpConsumesTheResponse : Obligations.TotpConsumesTheResponse := by
  intro s r d z rest hwait hreq hcmd
  refine ⟨fun hsched => ?_, fun hsched => ?_⟩
  · obtain ⟨-, htotp⟩ := responseRunsTheWaitingCommand s true r d z rest hsched hwait hreq
    rw [htotp hcmd, if_pos rfl, totpRespond_ok]
    rfl
  · obtain ⟨-, htotp⟩ := responseRunsTheWaitingCommand s false r d z rest hsched hwait hreq
    rw [htotp hcmd, if_neg Bool.false_ne_true, totpRespond_fail]

/-! ## Runs of a command, from its write to its completion -/

theorem stepsTo_cons {k : Nat} {s t u : State} (h : step s = .next t) (hrest : StepsTo k t u) : StepsTo (k + 1) s u :=
  ⟨t, h, hrest⟩

theorem stepsTo_trans {m n : Nat} {s t u : State} (hm : StepsTo m s t) (hn : StepsTo n t u) : StepsTo (n + m) s u := by
  induction m generalizing s with
  | zero => cases hm; exact hn
  | succ m ih =>
    obtain ⟨v, hv, hrest⟩ := hm
    exact stepsTo_cons hv (ih hrest)

/-- Another master's write of a command's word to CMD. -/
def commandWrite (i : Instr) : Turn := .bus (.write (Config.base + 0x10) 4 (encode i))

/-- The turns of a command that is written to CMD, run by the ENGINE and answered OK by HMACU. -/
def answeredTurns (i : Instr) : List Turn := [commandWrite i, .engine, .hmacu true]

/-- The state in which another master's write of a command has been accepted (R177), with the turns still to take. -/
def commandWritten (i : Instr) (rest : List Turn) (s : State) : State :=
  { accept (encode i) (after rest s) with bus := .written }

/-- A write of a command to CMD while BUSY = 0 is accepted (R177). -/
theorem step_commandWrite {s : State} {i : Instr} {rest : List Turn} (hbusy : s.busy = false)
    (hsched : s.sched = commandWrite i :: rest) : step s = .next (commandWritten i rest s) := by
  have hidle : ¬ (after rest s).busy = true := Bool.eq_false_iff.mp hbusy
  rw [step_write_reg .cmd (encode i) hsched, writeReg, if_neg (by decide), if_neg (by decide), if_neg hidle]
  rfl

/-- The ENGINE's turn after a well-formed command was written is `exec` of it (R177). -/
theorem step_commandWritten {i : Instr} {rest : List Turn} (s : State) (hwf : i.wf = true) :
    step (commandWritten i (.engine :: rest) s) = exec i (commandWritten i rest s) :=
  step_engine_pend rfl rfl (decode_encode hwf)

theorem digFits_of_supported {d : Nat} (h : Supported d) : digFits d = true := by
  rcases h with rfl | rfl | rfl <;> rfl

/-- A DERIVE with a counter leaves it in CTR (R101). -/
theorem stepsTo_derive {s : State} {c : DWord} {rest : List Turn} (z : Bool) (hbusy : s.busy = false)
    (hc : deriveCounter s.ts s.t0 s.stepSize = .ok c) (hsched : s.sched = commandWrite (.derive z) :: .engine :: rest) :
    StepsTo 2 s (ended false z 0 0 { commandWritten (.derive z) rest s with ctr := c }) := by
  have hrun : step (commandWritten (.derive z) (.engine :: rest) s) =
      .next (ended false z 0 0 { commandWritten (.derive z) rest s with ctr := c }) :=
    (step_commandWritten s rfl).trans (exec_derive_of_ok z hc)
  exact stepsTo_cons (step_commandWrite hbusy hsched) (stepsTo_cons hrun rfl)

/-- A HOTP with a key, answered OK, leaves the code of HMAC_FN(key, BE8(CTR)) (R135, R136). -/
theorem stepsTo_hotp {s : State} {d : Nat} (z : Bool) (hbusy : s.busy = false) (hd : Supported d) (hkey : s.keylen ≠ 0)
    (hsched : s.sched = answeredTurns (.hotp d z)) :
    StepsTo 3 s (ended true z 0 0
      (withCode (Config.hmacFn (keyHeld s) (message s.ctr)) d (commandWritten (.hotp d z) [] s))) := by
  obtain ⟨t, hissue, hanswer⟩ := hotpGivesTheCodeOfItsHmac (commandWritten (.hotp d z) [.engine, .hmacu true] s) d z []
    hd hkey rfl (decode_encode (digFits_of_supported hd)) rfl
  exact stepsTo_cons (step_commandWrite hbusy hsched) (stepsTo_cons hissue (stepsTo_cons hanswer rfl))

/-- A TOTP with a derived counter `c` and a key, answered OK, leaves the code of HMAC_FN(key, BE8(c)), and `c` in CTR
(R140, R141). -/
theorem stepsTo_totp {s : State} {d : Nat} {c : DWord} (z : Bool) (hbusy : s.busy = false) (hd : Supported d)
    (hc : deriveCounter s.ts s.t0 s.stepSize = .ok c) (hkey : s.keylen ≠ 0)
    (hsched : s.sched = answeredTurns (.totp d z)) :
    StepsTo 3 s (ended true z 0 0
      { withCode (Config.hmacFn (keyHeld s) (message c)) d (commandWritten (.totp d z) [] s) with ctr := c }) := by
  have hwf : (Instr.totp d z).wf = true := digFits_of_supported hd
  have hissue : step (commandWritten (.totp d z) [.engine, .hmacu true] s) =
      .next (requested c (commandWritten (.totp d z) [.hmacu true] s)) :=
    (step_commandWritten s hwf).trans (exec_totp_of_key z hd hc hkey)
  obtain ⟨hanswer, -⟩ := totpConsumesTheResponse (requested c (commandWritten (.totp d z) [.hmacu true] s)) _ d z []
    rfl rfl (decode_encode hwf)
  exact stepsTo_cons (step_commandWrite hbusy hsched) (stepsTo_cons hissue (stepsTo_cons (hanswer rfl) rfl))

/-! ## The composition law -/

/-- Settles O60: both runs make the code of the HMAC of one counter `c` under one key, which DERIVE keeps, and leave `c`
in CTR. -/
theorem totpIsDeriveThenHotp : Obligations.TotpIsDeriveThenHotp := by
  intro s d z z' hd hstep hle hkey _ hbusy
  obtain ⟨c, hc⟩ := (exists_deriveCounter_eq_ok_iff s.ts s.t0 s.stepSize).mpr ⟨hstep, hle⟩
  have htotp := stepsTo_totp (s := after (answeredTurns (.totp d z)) s) z hbusy hd hc hkey rfl
  have hderive := stepsTo_derive (s := after (commandWrite (.derive false) :: .engine :: answeredTurns (.hotp d z')) s)
    false hbusy hc rfl
  have hhotp := stepsTo_hotp (s := ended false false 0 0
    { commandWritten (.derive false) (answeredTurns (.hotp d z')) s with ctr := c }) z' rfl hd hkey rfl
  exact ⟨_, _, htotp, stepsTo_trans hderive hhotp, rfl, rfl, rfl, rfl, rfl, rfl, rfl⟩

end Sys2Proof.Machine
end

section
/-! PROOFS. No read path to the key (43_secret.md R157): from two states that differ only in secret bytes, every turn but an
OK answer of HMACU leads to outcomes that differ only there, agent by agent. -/

namespace Sys2Proof.Machine

open Sys2Proof.Machine.Spec

section

variable {s t : State}

/-! ## States that differ only in secret bytes -/

/-- The second of two such states is the first with other key bytes and a request of the same message. -/
theorem exists_of_equalButSecret (h : EqualButSecret s t) : ∃ keybuf req,
    s.req.map Request.msg = req.map Request.msg ∧ t = { s with keybuf := keybuf, req := req } :=
  ⟨t.keybuf, t.req, h.2, h.1⟩

/-- Every register reads the same in both (R67). -/
theorem readReg_eq_of_equalButSecret (r : Reg) (h : EqualButSecret s t) : readReg r s = readReg r t := by
  obtain ⟨keybuf, req, -, rfl⟩ := exists_of_equalButSecret h
  exact (readReg_hidden r s keybuf s.digest s.pcmd s.clatch req).symm

/-- The HOST's scratch registers are the same in both. -/
theorem hreg_eq_of_equalButSecret (x : Fin 16) (h : EqualButSecret s t) : s.hreg x = t.hreg x := by
  obtain ⟨keybuf, req, -, rfl⟩ := exists_of_equalButSecret h
  rfl

/-- Both are in the same phase of the same command. -/
theorem phase_eq_of_equalButSecret (h : EqualButSecret s t) : t.eng = s.eng ∧ t.pcmd = s.pcmd := by
  obtain ⟨keybuf, req, -, rfl⟩ := exists_of_equalButSecret h
  exact ⟨rfl, rfl⟩

/-- A request outstanding in the first has its counterpart in the second. -/
theorem exists_req_of_equalButSecret {r : Request} (h : EqualButSecret s t) (hreq : s.req = some r) :
    ∃ r', t.req = some r' := by
  obtain ⟨-, hmsg⟩ := h
  rw [hreq] at hmsg
  obtain ⟨r', hr', -⟩ := Option.map_eq_some_iff.mp hmsg.symm
  exact ⟨r', hr'⟩

/-- The bus's last answer is no secret, whatever it is. -/
theorem withBus_equalButSecret (bus : BusResponse) (h : EqualButSecret s t) :
    EqualButSecret { s with bus := bus } { t with bus := bus } := by
  obtain ⟨keybuf, req, hmsg, rfl⟩ := exists_of_equalButSecret h
  exact ⟨rfl, hmsg⟩

/-! ## ENGINE -/

/-- The completion procedure tests no secret (R176). -/
theorem finish_equalButSecret {hmac z : Bool} {e : BitVec 4} {i : BitVec 8} (h : EqualButSecret s t) :
    EqualButSecret (finish hmac z e i s) (finish hmac z e i t) := by
  obtain ⟨keybuf, req, hmsg, rfl⟩ := exists_of_equalButSecret h
  rw [finish_record, finish_record]
  cases hmac with
  | false => exact ⟨rfl, hmsg⟩
  | true => exact ⟨rfl, rfl⟩

/-- The requests for one counter carry one message, whatever the keys (R131). -/
theorem issueHmac_equalButSecret (c : DWord) (h : EqualButSecret s t) :
    EqualButSecret (issueHmac c s) (issueHmac c t) := by
  obtain ⟨keybuf, req, -, rfl⟩ := exists_of_equalButSecret h
  exact ⟨rfl, rfl⟩

/-- No command's checks or results read the key bytes or the request. -/
theorem exec_equalButSecret (i : Instr) (h : EqualButSecret s t) : OutcomesEqualButSecret (exec i s) (exec i t) := by
  obtain ⟨keybuf, req, hmsg, rfl⟩ := exists_of_equalButSecret h
  cases i with
  | nop z => exact finish_equalButSecret h
  | derive z =>
    dsimp only [exec, execDerive]
    cases deriveCounter s.ts s.t0 s.stepSize with
    | error e => exact finish_equalButSecret h
    | ok c => exact finish_equalButSecret ⟨rfl, hmsg⟩
  | trunc z => exact finish_equalButSecret ⟨rfl, hmsg⟩
  | reduce d z =>
    dsimp only [exec, execReduce]
    split_ifs
    · exact finish_equalButSecret ⟨rfl, hmsg⟩
    · exact finish_equalButSecret h
  | format d z =>
    dsimp only [exec, execFormat]
    split_ifs <;> exact finish_equalButSecret ⟨rfl, hmsg⟩
  | dtf d z =>
    dsimp only [exec, execDtf]
    split_ifs <;> exact finish_equalButSecret ⟨rfl, hmsg⟩
  | hotp d z =>
    dsimp only [exec, execHotp]
    split_ifs
    · exact finish_equalButSecret ⟨rfl, hmsg⟩
    · exact issueHmac_equalButSecret s.ctr h
    · exact finish_equalButSecret ⟨rfl, hmsg⟩
  | totp d z =>
    dsimp only [exec, execTotp]
    cases deriveCounter s.ts s.t0 s.stepSize with
    | error e => split_ifs <;> exact finish_equalButSecret ⟨rfl, hmsg⟩
    | ok c =>
      split_ifs
      · exact finish_equalButSecret ⟨rfl, hmsg⟩
      · exact issueHmac_equalButSecret c h
      · exact finish_equalButSecret ⟨rfl, hmsg⟩
  | kopen z => exact finish_equalButSecret ⟨rfl, hmsg⟩
  | kpush kb z =>
    dsimp only [exec, execKpush]
    split_ifs
    · exact finish_equalButSecret h
    · exact finish_equalButSecret h
    · exact finish_equalButSecret ⟨rfl, hmsg⟩
  | kclose z => exact finish_equalButSecret ⟨rfl, hmsg⟩
  | zall z => exact finish_equalButSecret ⟨rfl, hmsg⟩

theorem engineStep_equalButSecret (h : EqualButSecret s t) :
    OutcomesEqualButSecret (engineStep s) (engineStep t) := by
  obtain ⟨heng, hpcmd⟩ := phase_eq_of_equalButSecret h
  by_cases hpend : s.eng = .pend
  · cases hdec : decode s.pcmd with
    | ok i =>
      rw [engineStep_ok hpend hdec, engineStep_ok (heng.trans hpend) (hpcmd ▸ hdec)]
      exact exec_equalButSecret i h
    | error e =>
      rw [engineStep_error hpend hdec, engineStep_error (heng.trans hpend) (hpcmd ▸ hdec), rejectIllegal, rejectIllegal,
        hpcmd]
      exact finish_equalButSecret h
  · rw [engineStep_not_pend hpend, engineStep_not_pend (heng ▸ hpend)]
    exact h

/-! ## HMACU's FAIL answer -/

/-- The second phase after FAIL does not look into the request (R136, R141). -/
theorem respond_fail_equalButSecret (h : EqualButSecret s t) : EqualButSecret (respond .fail s) (respond .fail t) := by
  obtain ⟨keybuf, req, hmsg, rfl⟩ := exists_of_equalButSecret h
  dsimp only [respond]
  cases decode s.pcmd with
  | error e => exact h
  | ok i =>
    cases i with
    | hotp d z => exact finish_equalButSecret ⟨rfl, hmsg⟩
    | totp d z => exact finish_equalButSecret ⟨rfl, hmsg⟩
    | _ => exact h

theorem hmacuStep_fail_equalButSecret (h : EqualButSecret s t) :
    EqualButSecret (hmacuStep false s) (hmacuStep false t) := by
  obtain ⟨heng, -⟩ := phase_eq_of_equalButSecret h
  by_cases hwait : s.eng = .wait
  · cases hreq : s.req with
    | none =>
      have hreq' : t.req = none := by
        obtain ⟨-, hmsg⟩ := h
        simpa [hreq] using hmsg.symm
      simpa only [hmacuStep, hwait, heng, hreq, hreq'] using h
    | some r =>
      obtain ⟨r', hreq'⟩ := exists_req_of_equalButSecret h hreq
      rw [hmacuStep_wait false hwait hreq, hmacuStep_wait false (heng.trans hwait) hreq']
      exact respond_fail_equalButSecret h
  · rw [hmacuStep_not_wait false hwait, hmacuStep_not_wait false (heng ▸ hwait)]
    exact h

/-! ## HOST and the other masters -/

/-- A write while BUSY = 0 leaves the same fields changed in both (R64). -/
theorem writeIdle_equalButSecret (r : Reg) (v : Word) (h : EqualButSecret s t) :
    EqualButSecret (writeIdle r v s) (writeIdle r v t) := by
  obtain ⟨keybuf, req, hmsg, rfl⟩ := exists_of_equalButSecret h
  cases r <;> dsimp only [writeIdle] <;> exact ⟨rfl, hmsg⟩

/-- A host write of a register neither reads nor changes a secret (R64). -/
theorem writeReg_equalButSecret (r : Reg) (v : Word) (h : EqualButSecret s t) :
    EqualButSecret (writeReg r v s) (writeReg r v t) := by
  obtain ⟨keybuf, req, hmsg, rfl⟩ := exists_of_equalButSecret h
  dsimp only [writeReg]
  split_ifs
  · exact ⟨rfl, hmsg⟩
  · exact ⟨rfl, hmsg⟩
  · exact ⟨rfl, hmsg⟩
  · exact writeIdle_equalButSecret r v h

theorem busRead_eq_of_equalButSecret (addr size : Nat) (h : EqualButSecret s t) :
    busRead addr size s = busRead addr size t := by
  simp only [busRead, readReg_eq_of_equalButSecret _ h]

theorem busAccess_equalButSecret (a : Access) (h : EqualButSecret s t) :
    EqualButSecret (busAccess a s) (busAccess a t) := by
  cases a with
  | read addr size =>
    rw [busAccess, busAccess, busRead_eq_of_equalButSecret addr size h]
    exact withBus_equalButSecret _ h
  | write addr size v =>
    dsimp only [busAccess, busWrite]
    cases regAt addr size with
    | none => exact withBus_equalButSecret _ h
    | some r => exact withBus_equalButSecret _ (writeReg_equalButSecret r v h)

theorem setHreg_equalButSecret (x : Fin 16) (v : Word) (h : EqualButSecret s t) :
    EqualButSecret (setHreg x v s) (setHreg x v t) := by
  obtain ⟨keybuf, req, hmsg, rfl⟩ := exists_of_equalButSecret h
  exact ⟨rfl, hmsg⟩

theorem hostGoto_equalButSecret (l : Nat) (h : EqualButSecret s t) :
    EqualButSecret (hostGoto l s) (hostGoto l t) := by
  obtain ⟨keybuf, req, hmsg, rfl⟩ := exists_of_equalButSecret h
  exact ⟨rfl, hmsg⟩

theorem hostNext_equalButSecret (h : EqualButSecret s t) : EqualButSecret (hostNext s) (hostNext t) := by
  obtain ⟨keybuf, req, hmsg, rfl⟩ := exists_of_equalButSecret h
  exact ⟨rfl, hmsg⟩

theorem hostBranch_equalButSecret (taken : Bool) (l : Nat) (h : EqualButSecret s t) :
    EqualButSecret (hostBranch taken l s) (hostBranch taken l t) := by
  cases taken with
  | false => exact hostNext_equalButSecret h
  | true => exact hostGoto_equalButSecret l h

theorem hostWrite_equalButSecret (r : Reg) (v : Word) (h : EqualButSecret s t) :
    EqualButSecret (hostWrite r v s) (hostWrite r v t) :=
  withBus_equalButSecret _ (writeReg_equalButSecret r v h)

theorem hostRead_equalButSecret (x : Fin 16) (r : Reg) (h : EqualButSecret s t) :
    EqualButSecret (hostRead x r s) (hostRead x r t) := by
  rw [hostRead, hostRead, readReg_eq_of_equalButSecret r h]
  exact setHreg_equalButSecret x _ (withBus_equalButSecret _ h)

/-- The HOST sees secrets neither through the window nor in its own registers, and stops at the same bus errors. -/
theorem execHost_equalButSecret (i : HostInstr) (h : EqualButSecret s t) :
    OutcomesEqualButSecret (execHost i s) (execHost i t) := by
  cases i with
  | wrImm r v => exact hostNext_equalButSecret (hostWrite_equalButSecret r v h)
  | wrReg r x =>
    rw [execHost, execHost, hreg_eq_of_equalButSecret x h]
    exact hostNext_equalButSecret (hostWrite_equalButSecret r _ h)
  | rd x r => exact hostNext_equalButSecret (hostRead_equalButSecret x r h)
  | li x v => exact hostNext_equalButSecret (setHreg_equalButSecret x v h)
  | andi x y v =>
    rw [execHost, execHost, hreg_eq_of_equalButSecret y h]
    exact hostNext_equalButSecret (setHreg_equalButSecret x _ h)
  | addi x y n =>
    rw [execHost, execHost, hreg_eq_of_equalButSecret y h]
    exact hostNext_equalButSecret (setHreg_equalButSecret x _ h)
  | bnez x l =>
    rw [execHost, execHost, hreg_eq_of_equalButSecret x h]
    exact hostBranch_equalButSecret _ l h
  | beqz x l =>
    rw [execHost, execHost, hreg_eq_of_equalButSecret x h]
    exact hostBranch_equalButSecret _ l h
  | memRead x addr size =>
    dsimp only [execHost, hostMemRead]
    cases regAt addr size with
    | none => exact rfl
    | some r => exact hostNext_equalButSecret (hostRead_equalButSecret x r h)
  | memWrite addr size v =>
    dsimp only [execHost, hostMemWrite]
    cases regAt addr size with
    | none => exact rfl
    | some r => exact hostNext_equalButSecret (hostWrite_equalButSecret r v h)

theorem hostStep_equalButSecret (h : EqualButSecret s t) : OutcomesEqualButSecret (hostStep s) (hostStep t) := by
  obtain ⟨keybuf, req, -, rfl⟩ := exists_of_equalButSecret h
  dsimp only [hostStep]
  cases s.host.prog[s.host.pc]? with
  | none => exact h
  | some i => exact execHost_equalButSecret i h

/-! ## The step -/

/-- Which turn is next is no secret. -/
theorem nextTurn_eq_of_equalButSecret (h : EqualButSecret s t) : nextTurn s = nextTurn t := by
  obtain ⟨keybuf, req, -, rfl⟩ := exists_of_equalButSecret h
  rfl

theorem takeTurn_equalButSecret (h : EqualButSecret s t) : EqualButSecret (takeTurn s) (takeTurn t) := by
  obtain ⟨keybuf, req, hmsg, rfl⟩ := exists_of_equalButSecret h
  cases hsched : s.sched with
  | nil => simpa only [takeTurn, hsched] using ⟨rfl, hmsg⟩
  | cons turn rest => simpa only [takeTurn, hsched] using ⟨rfl, hmsg⟩

theorem resetBlock_equalButSecret (h : EqualButSecret s t) : EqualButSecret (resetBlock s) (resetBlock t) := by
  obtain ⟨keybuf, req, -, rfl⟩ := exists_of_equalButSecret h
  exact ⟨rfl, rfl⟩

/-- Every turn but an OK answer keeps two such states such (R157). -/
theorem runTurn_equalButSecret {turn : Turn} (hturn : turn ≠ .hmacu true) (h : EqualButSecret s t) :
    OutcomesEqualButSecret (runTurn turn s) (runTurn turn t) := by
  cases turn with
  | host => exact hostStep_equalButSecret h
  | bus a => exact busAccess_equalButSecret a h
  | engine => exact engineStep_equalButSecret h
  | hmacu ok =>
    cases ok with
    | false => exact hmacuStep_fail_equalButSecret h
    | true => exact absurd rfl hturn
  | reset => exact resetBlock_equalButSecret h

end

/-- Settles O57: both states take the same turn, which `runTurn_equalButSecret` follows; the window shows no secret. -/
theorem secretFlowsOnlyThroughAnOkAnswer : Obligations.SecretFlowsOnlyThroughAnOkAnswer := by
  refine fun s t h hturn => ⟨?_, fun r => readReg_eq_of_equalButSecret r h⟩
  rw [step, step, ← nextTurn_eq_of_equalButSecret h]
  exact runTurn_equalButSecret hturn (takeTurn_equalButSecret h)

end Sys2Proof.Machine
end

section
/-! PROOFS. The secret-material commands KOPEN, KPUSH, KCLOSE and ZALL, and NOP (43_secret.md R152 to R156). -/

namespace Sys2Proof.Machine

open Sys2Proof.Machine.Spec

/-! ## NOP -/

theorem exec_nop (z : Bool) (s : State) : exec (.nop z) s = .next (ended false z 0 0 s) := by
  rw [exec, execNop, complete_eq_ended]

/-- Settles O31: `exec_nop`, the two words of NOP, and the fields its opcode does not take. -/
theorem nopOnlyCompletes : Obligations.NopOnlyCompletes :=
  ⟨exec_nop, by decide, by decide, reservedFieldsIllegal_of_named (op := 0x00) (by decide)⟩

/-! ## KOPEN -/

theorem exec_kopen (z : Bool) (s : State) : exec (.kopen z) s =
    .next (ended false z 0 0 { s with keybuf := zeros 64, keylen := 0, scope := true }) := by
  rw [exec, execKopen, complete_eq_ended]
  rfl

/-- Settles O41: `exec_kopen`, the two words of KOPEN, and the fields its opcode does not take. -/
theorem kopenOpensAZeroedScope : Obligations.KopenOpensAZeroedScope :=
  ⟨exec_kopen, by decide, by decide, reservedFieldsIllegal_of_named (op := 0x30) (by decide)⟩

/-! ## KPUSH -/

/-- A byte stored at an index of the buffer, byte by byte (R153). -/
theorem setIfInBounds_eq_ofFn {n : Nat} (buf : Vector Byte n) (i : Nat) (b : Byte) :
    buf.setIfInBounds i b = Vector.ofFn fun j => if j.val = i then b else buf[j.val] := by
  ext j hj
  simp only [Vector.getElem_setIfInBounds, Vector.getElem_ofFn, eq_comm]

theorem exec_kpush_of_closed (kb : Byte) (z : Bool) {s : State} (h : s.scope = false) :
    exec (.kpush kb z) s = .next (ended false z 4 1 s) := by
  rw [exec, execKpush, if_pos h, raise_eq_ended]
  rfl

theorem exec_kpush_of_full (kb : Byte) (z : Bool) {s : State} (hopen : s.scope = true) (hfull : s.keylen.toNat = 64) :
    exec (.kpush kb z) s = .next (ended false z 4 2 s) := by
  rw [exec, execKpush, if_neg (ne_false_of_eq_true hopen), if_pos hfull, raise_eq_ended]
  rfl

theorem exec_kpush_of_room (kb : Byte) (z : Bool) {s : State} (hopen : s.scope = true) (hroom : s.keylen.toNat < 64) :
    exec (.kpush kb z) s = .next (ended false z 0 0 { s with
      keybuf := Vector.ofFn fun i => if i.val = s.keylen.toNat then kb else s.keybuf[i.val],
      keylen := BitVec.ofNat 8 (s.keylen.toNat + 1) }) := by
  have hlen : s.keylen + 1 = BitVec.ofNat 8 (s.keylen.toNat + 1) := by bv_omega
  rw [exec, execKpush, if_neg (ne_false_of_eq_true hopen), if_neg hroom.ne, complete_eq_ended, setIfInBounds_eq_ofFn, hlen]

/-- Settles O42: KPUSH's three paths, its two words, and the fields its opcode does not take. -/
theorem kpushAppendsTheByte : Obligations.KpushAppendsTheByte :=
  ⟨fun kb z _ => ⟨exec_kpush_of_closed kb z, exec_kpush_of_full kb z, exec_kpush_of_room kb z⟩, by decide, by decide,
    reservedFieldsIllegal_of_named (op := 0x31) (by decide)⟩

/-! ## KCLOSE -/

theorem exec_kclose (z : Bool) (s : State) : exec (.kclose z) s =
    .next (ended false z 0 0 { s with keybuf := zeros 64, keylen := 0, scope := false }) := by
  rw [exec, execKclose, complete_eq_ended]
  rfl

/-- Settles O43: `exec_kclose`, the two words of KCLOSE, and the fields its opcode does not take. -/
theorem kcloseZeroizesTheScope : Obligations.KcloseZeroizesTheScope :=
  ⟨exec_kclose, by decide, by decide, reservedFieldsIllegal_of_named (op := 0x32) (by decide)⟩

/-! ## ZALL -/

theorem exec_zall (z : Bool) (s : State) : exec (.zall z) s = .next (ended false z 0 0 { s with
    keybuf := zeros 64, keylen := 0, scope := false, digest := zeros 20, bin := 0, num := 0,
    code := zeros 12, codelen := 0, ts := 0, t0 := 0, stepSize := 0, ctr := 0 }) := by
  rw [exec, execZall, complete_eq_ended]
  rfl

/-- Settles O44: `exec_zall`, the two words of ZALL, and the fields its opcode does not take. -/
theorem zallZeroizesEveryDataRegister : Obligations.ZallZeroizesEveryDataRegister :=
  ⟨exec_zall, by decide, by decide, reservedFieldsIllegal_of_named (op := 0x3F) (by decide)⟩

end Sys2Proof.Machine
end

section
/-! PROOFS. What a step can do to secrets: the ways in which the key scope ends (43_secret.md R150, R151), and the erasure of
HOTP's and TOTP's working copies when the command ends (R158). -/

namespace Sys2Proof.Machine

open Sys2Proof.Machine.Spec

/-! ## The scope's end -/

/-- `t` holds no key: the buffer is all zero and KEYLEN is 0 (R151). -/
def KeyZeroed (t : State) : Prop := t.keybuf = zeros 64 ∧ t.keylen = 0

/-- The completion procedure closes an open scope only by Z, and zeroizes it then (R176). -/
theorem finish_closes {h z : Bool} {e : BitVec 4} {i : BitVec 8} {s : State} (hopen : s.scope = true)
    (hclosed : (finish h z e i s).scope = false) : KeyZeroed (finish h z e i s) ∧ z = true := by
  cases z with
  | false => simp [hopen] at hclosed
  | true => exact ⟨by simp [KeyZeroed, zeros], rfl⟩

/-- The completion procedure keeps a key that is zeroed already. -/
theorem finish_keyZeroed {s : State} (hs : KeyZeroed s) (h z : Bool) (e : BitVec 4) (i : BitVec 8) :
    KeyZeroed (finish h z e i s) := by
  obtain ⟨hbuf, hlen⟩ := hs
  cases z with
  | false => simp [KeyZeroed, hbuf, hlen]
  | true => simp [KeyZeroed, zeros]

/-- A command closes an open scope only by Z, or by being KCLOSE or ZALL (R150). -/
theorem exec_closes {i : Instr} {s t : State} (hexec : exec i s = .next t) (hopen : s.scope = true)
    (hclosed : t.scope = false) :
    KeyZeroed t ∧ (i.z = true ∨ i = .kclose false ∨ i = .zall false) := by
  rcases exec_cases hexec with ⟨-, c, rfl⟩ | ⟨e, rfl⟩ | ⟨-, e, rfl⟩ | ⟨-, u, rfl, hu⟩
  · exact absurd hopen (ne_true_of_eq_false hclosed)
  · exact (finish_closes hopen hclosed).imp_right .inl
  · exact (finish_closes (s := invalidateCode s) hopen hclosed).imp_right .inl
  · rcases hu with ⟨hscope, -⟩ | ⟨-, hscope⟩ | ⟨-, hscope⟩ | ⟨hi, -, hbuf, hlen⟩
    · exact (finish_closes (hscope.trans hopen) hclosed).imp_right .inl
    · exact (finish_closes hscope hclosed).imp_right .inl
    · exact (finish_closes (hscope.trans hopen) hclosed).imp_right .inl
    · refine ⟨finish_keyZeroed ⟨hbuf, hlen⟩ .., ?_⟩
      rcases hi with ⟨z, rfl⟩ | ⟨z, rfl⟩ <;> cases z <;> simp [Instr.z]

/-- A decoded command's Z is bit 12 of its word (R84). -/
theorem bit12_of_decode {w : Word} {i : Instr} (h : decode w = .ok i) : w.getLsbD 12 = i.z := by
  obtain ⟨-, hz, -⟩ := decode_ok_fields h
  exact hz.symm

/-- HMACU's turn does nothing, or runs the completion procedure of a waiting HOTP or TOTP with the scope untouched before it
(R136, R141). -/
theorem hmacuStep_eq_finish (ok : Bool) (s : State) : hmacuStep ok s = s ∨ (s.eng = .wait ∧
    ∃ e i u, hmacuStep ok s = finish true (s.pcmd.getLsbD 12) e i u ∧ u.scope = s.scope) := by
  rcases hmacuStep_cases ok s with h | ⟨hwait, r, -, d, z, ⟨hdec, h⟩ | ⟨hdec, h⟩⟩
  · exact .inl h
  · rw [h, bit12_of_decode hdec]
    cases hmacResponse ok r <;> exact .inr ⟨hwait, _, _, _, rfl, rfl⟩
  · rw [h, bit12_of_decode hdec]
    cases hmacResponse ok r <;> exact .inr ⟨hwait, _, _, _, rfl, rfl⟩

/-- HMACU's turn closes an open scope only as the response to a waiting command with Z = 1 (R150). -/
theorem hmacuStep_closes {ok : Bool} {s : State} (hopen : s.scope = true) (hclosed : (hmacuStep ok s).scope = false) :
    KeyZeroed (hmacuStep ok s) ∧ s.eng = .wait ∧ s.pcmd.getLsbD 12 = true := by
  rcases hmacuStep_eq_finish ok s with h | ⟨hwait, e, i, u, h, hscope⟩ <;> rw [h] at hclosed ⊢
  · exact absurd hopen (ne_true_of_eq_false hclosed)
  · obtain ⟨hkey, hz⟩ := finish_closes (hscope.trans hopen) hclosed
    exact ⟨hkey, hwait, hz⟩

/-- Settles O54, turn by turn: only `exec`, an illegal word, a response and reset write SCOPE, and each zeroizes the key when
it closes the scope. -/
theorem scopeEndsOnlyByItsFourWays : Obligations.ScopeEndsOnlyByItsFourWays := by
  intro s t hstep hopen hclosed
  obtain ⟨u, rfl, hcases⟩ := step_cases hstep
  obtain ⟨sched, draws, htake⟩ := takeTurn_record s
  rw [htake] at hcases
  rcases hcases with ⟨hturn, hpend, i, hdec, hexec⟩ | ⟨hturn, hpend, e, -, rfl⟩ | ⟨ok, hturn, rfl⟩ | ⟨hturn, rfl⟩ |
    ⟨r, v, b, host, rfl⟩ | ⟨b, host, rfl⟩
  · obtain ⟨hkey, hz | rfl | rfl⟩ := exec_closes hexec hopen hclosed
    · exact ⟨hkey, .inr (.inl ⟨hturn, hpend, .inl ((bit12_of_decode hdec).trans hz)⟩)⟩
    · exact ⟨hkey, .inr (.inl ⟨hturn, hpend, .inr (.inl hdec)⟩)⟩
    · exact ⟨hkey, .inr (.inl ⟨hturn, hpend, .inr (.inr hdec)⟩)⟩
  · obtain ⟨hkey, hz⟩ := finish_closes (s := { s with sched := sched, draws := draws }) hopen hclosed
    exact ⟨hkey, .inr (.inl ⟨hturn, hpend, .inl hz⟩)⟩
  · obtain ⟨hkey, hwait, hz⟩ := hmacuStep_closes (s := { s with sched := sched, draws := draws }) hopen hclosed
    exact ⟨hkey, .inr (.inr ⟨ok, hturn, hwait, hz⟩)⟩
  · exact ⟨⟨rfl, rfl⟩, .inl hturn⟩
  · have hkept := writeReg_scope r v { s with sched := sched, draws := draws }
    exact absurd hopen (ne_true_of_eq_false (hkept.symm.trans hclosed))
  · exact absurd hopen (ne_true_of_eq_false hclosed)

/-! ## The working copies of HOTP and TOTP -/

/-- `t` holds no working copy of a secret: no request, no digest, no latched counter (R158). -/
def CopiesErased (t : State) : Prop := t.req = none ∧ t.digest = zeros 20 ∧ t.clatch = 0

/-- The completion procedure of a HOTP or TOTP erases the working copies (R176). -/
theorem finish_copiesErased (z : Bool) (e : BitVec 4) (i : BitVec 8) (s : State) :
    CopiesErased (finish true z e i s) := by
  simp [CopiesErased, zeros]

/-- The first phase of a HOTP or TOTP issues the request, or ends with the working copies erased (R135, R140). -/
theorem exec_copiesErased {i : Instr} {s t : State} (hask : asksHmac i = true) (hexec : exec i s = .next t) :
    t.eng = .wait ∨ CopiesErased t := by
  rcases exec_cases hexec with ⟨-, c, rfl⟩ | ⟨e, rfl⟩ | ⟨-, e, rfl⟩ | ⟨hnot, -⟩
  · exact .inl rfl
  · rw [hask]; exact .inr (finish_copiesErased ..)
  · rw [hask]; exact .inr (finish_copiesErased ..)
  · exact absurd hask (ne_true_of_eq_false hnot)

/-- HMACU's turn does nothing, or ends the waiting command with the working copies erased (R136, R141). -/
theorem hmacuStep_copiesErased (ok : Bool) (s : State) : hmacuStep ok s = s ∨ CopiesErased (hmacuStep ok s) := by
  rcases hmacuStep_eq_finish ok s with h | ⟨-, e, i, u, h, -⟩
  · exact .inl h
  · rw [h]; exact .inr (finish_copiesErased ..)

/-- A host write ends no command: it makes one pending, or leaves ENG (R64, R177). -/
theorem writeReg_eng (r : Reg) (v : Word) (s : State) : (writeReg r v s).eng = .pend ∨ (writeReg r v s).eng = s.eng := by
  rcases writeReg_cases r v s with ⟨-, h⟩ | ⟨-, h⟩ | ⟨-, -, -, h⟩ | ⟨-, -, -, h⟩ <;> rw [h]
  · exact .inr rfl
  · exact .inr rfl
  · exact .inr rfl
  · rcases writeIdle_cases r v s with ⟨-, h⟩ | ⟨-, _, _, _, _, _, h⟩ <;> rw [h]
    · exact .inl rfl
    · exact .inr rfl

theorem writeReg_eng_ne_idle {s : State} (r : Reg) (v : Word) (hs : s.eng ≠ .idle) : (writeReg r v s).eng ≠ .idle := by
  rcases writeReg_eng r v s with h | h <;> rw [h]
  · decide
  · exact hs

/-- Settles O56, turn by turn: a HOTP or TOTP leaves PEND or WAIT for IDLE only by the completion procedure, which erases
the working copies, or by reset. -/
theorem workingCopiesErasedOnEveryExit : Obligations.WorkingCopiesErasedOnEveryExit := by
  intro s t d z hcmd hbusy hstep hidle
  obtain ⟨u, rfl, hcases⟩ := step_cases hstep
  obtain ⟨sched, draws, htake⟩ := takeTurn_record s
  rw [htake] at hcases
  rcases hcases with ⟨-, -, i, hdec, hexec⟩ | ⟨-, -, e, hdec, -⟩ | ⟨ok, -, rfl⟩ | ⟨-, rfl⟩ | ⟨r, v, b, host, rfl⟩ |
    ⟨b, host, rfl⟩
  · have hask : asksHmac i = true := by
      rcases hcmd with h | h <;> cases h.symm.trans hdec <;> rfl
    rcases exec_copiesErased hask hexec with hwait | herased
    · cases hwait.symm.trans hidle
    · exact herased
  · rcases hcmd with h | h <;> cases h.symm.trans hdec
  · rcases hmacuStep_copiesErased ok { s with sched := sched, draws := draws } with hsame | herased
    · rw [hsame] at hidle
      exact absurd hidle hbusy
    · exact herased
  · exact ⟨rfl, rfl, rfl⟩
  · exact absurd hidle (writeReg_eng_ne_idle r v hbusy)
  · exact absurd hidle hbusy

end Sys2Proof.Machine
end

section
/-! PROOFS. The statements about completion and errors (60_exceptions.md): a failed command writes no result (R175), the
completion procedure (R176), accept and the ENGINE's turn (R177), and the ways to clear irq (R179). -/

namespace Sys2Proof.Machine

open Sys2Proof.Machine.Spec

/-! ## A command that ends in error -/

/-- The word is a command whose failures invalidate CODE (R119, R175). -/
def IsCodeCommand (w : Word) : Prop :=
  ∃ d z, decode w = .ok (.format d z) ∨ decode w = .ok (.dtf d z) ∨ decode w = .ok (.hotp d z) ∨
    decode w = .ok (.totp d z)

theorem isCodeCommand_of_makesCode {w : Word} {i : Instr} (hdec : decode w = .ok i) (hi : makesCode i = true) :
    IsCodeCommand w := by
  cases i with
  | format d z => exact ⟨d, z, .inl hdec⟩
  | dtf d z => exact ⟨d, z, .inr (.inl hdec)⟩
  | hotp d z => exact ⟨d, z, .inr (.inr (.inl hdec))⟩
  | totp d z => exact ⟨d, z, .inr (.inr (.inr hdec))⟩
  | nop z => cases hi
  | derive z => cases hi
  | trunc z => cases hi
  | reduce d z => cases hi
  | kopen z => cases hi
  | kpush kb z => cases hi
  | kclose z => cases hi
  | zall z => cases hi

/-- `t` is `s` after the completion procedure with an error, entered from `s` itself or, by a command that would have made
a code, from `s` without its code (R175, R176). -/
def FailedEnd (s t : State) : Prop :=
  ∃ hmac e i u, t = ended hmac (s.pcmd.getLsbD 12) e i u ∧ (u = s ∨ u = noCode s ∧ IsCodeCommand s.pcmd)

theorem raise_failedEnd (hmac : Bool) (e : CmdError) (s : State) :
    FailedEnd s (raise hmac (s.pcmd.getLsbD 12) e s) :=
  ⟨_, _, _, _, raise_eq_ended .., .inl rfl⟩

theorem raiseNoCode_failedEnd (hmac : Bool) (e : CmdError) {s : State} (h : IsCodeCommand s.pcmd) :
    FailedEnd s (raiseNoCode hmac (s.pcmd.getLsbD 12) e s) :=
  ⟨_, _, _, _, raiseNoCode_eq_ended .., .inr ⟨rfl, h⟩⟩

/-- A command's first step that leaves an error has raised it: a request leaves ERR and a success clears it. -/
theorem exec_failedEnd {i : Instr} {s t : State} (hdec : decode s.pcmd = .ok i) (hexec : exec i s = .next t)
    (hs : s.err = 0) (ht : t.err ≠ 0) : FailedEnd s t := by
  have hz := bit12_of_decode hdec
  rcases exec_cases hexec with ⟨-, c, rfl⟩ | ⟨e, rfl⟩ | ⟨hi, e, rfl⟩ | ⟨-, u, rfl, -⟩
  · exact absurd hs ht
  · rw [← hz]; exact raise_failedEnd ..
  · rw [← hz]; exact raiseNoCode_failedEnd _ _ (isCodeCommand_of_makesCode hdec hi)
  · exact absurd (finish_err ..) ht

theorem engineStep_failedEnd {s t : State} (hstep : engineStep s = .next t) (hs : s.err = 0) (ht : t.err ≠ 0) :
    FailedEnd s t := by
  by_cases hpend : s.eng = .pend
  · cases hdec : decode s.pcmd with
    | ok i => exact exec_failedEnd hdec (engineStep_ok hpend hdec ▸ hstep) hs ht
    | error e =>
      cases (engineStep_error hpend hdec).symm.trans hstep
      exact raise_failedEnd ..
  · cases (engineStep_not_pend hpend).symm.trans hstep
    exact absurd hs ht

/-- The second phase of a HOTP that leaves an error is that of the FAIL answer (R136). -/
theorem hotpRespond_failedEnd {d : Nat} {z : Bool} {resp : HmacResponse} {s : State}
    (hdec : decode s.pcmd = .ok (.hotp d z)) (ht : (hotpRespond d z resp s).err ≠ 0) :
    FailedEnd s (hotpRespond d z resp s) := by
  obtain rfl : s.pcmd.getLsbD 12 = z := bit12_of_decode hdec
  cases resp with
  | ok dg => exact absurd (finish_err ..) ht
  | fail => exact raiseNoCode_failedEnd true .hmacFail ⟨d, _, .inr (.inr (.inl hdec))⟩

/-- The second phase of a TOTP that leaves an error is that of the FAIL answer (R141). -/
theorem totpRespond_failedEnd {d : Nat} {z : Bool} {resp : HmacResponse} {s : State}
    (hdec : decode s.pcmd = .ok (.totp d z)) (ht : (totpRespond d z resp s).err ≠ 0) :
    FailedEnd s (totpRespond d z resp s) := by
  obtain rfl : s.pcmd.getLsbD 12 = z := bit12_of_decode hdec
  cases resp with
  | ok dg => exact absurd (finish_err ..) ht
  | fail => exact raiseNoCode_failedEnd true .hmacFail ⟨d, _, .inr (.inr (.inr hdec))⟩

theorem hmacuStep_failedEnd {ok : Bool} {s : State} (hs : s.err = 0) (ht : (hmacuStep ok s).err ≠ 0) :
    FailedEnd s (hmacuStep ok s) := by
  rcases hmacuStep_cases ok s with h | ⟨-, r, -, d, z, ⟨hdec, h⟩ | ⟨hdec, h⟩⟩ <;> rw [h] at ht ⊢
  · exact absurd hs ht
  · exact hotpRespond_failedEnd hdec ht
  · exact totpRespond_failedEnd hdec ht

/-- A turn of the ENGINE or of HMACU that leaves an error has ended a command with it. -/
theorem step_failedEnd {s t : State} {rest : List Turn}
    (hsched : s.sched = .engine :: rest ∨ s.sched = .hmacu true :: rest ∨ s.sched = .hmacu false :: rest)
    (hs : s.err = 0) (hstep : step s = .next t) (ht : t.err ≠ 0) : FailedEnd (after rest s) t := by
  rcases hsched with h | h | h <;> rw [step_cons h] at hstep
  · exact engineStep_failedEnd hstep hs ht
  · cases hstep; exact hmacuStep_failedEnd (s := after rest s) hs ht
  · cases hstep; exact hmacuStep_failedEnd (s := after rest s) hs ht

/-- The completion procedure keeps the working copies or erases them (R176). -/
theorem ended_copies (hmac z : Bool) (e : BitVec 4) (i : BitVec 8) (s : State) :
    ((ended hmac z e i s).digest = s.digest ∨ (ended hmac z e i s).digest = zeros 20) ∧
    ((ended hmac z e i s).req = s.req ∨ (ended hmac z e i s).req = none) := by
  cases hmac with
  | false => exact ⟨.inl rfl, .inl rfl⟩
  | true => exact ⟨.inr rfl, .inr rfl⟩

/-- The completion procedure zeroizes the key and the scope exactly with Z (R176). -/
theorem ended_key (hmac z : Bool) (e : BitVec 4) (i : BitVec 8) (s : State) :
    if z then (ended hmac z e i s).keybuf = zeros 64 ∧ (ended hmac z e i s).keylen = 0 ∧
        (ended hmac z e i s).scope = false
      else (ended hmac z e i s).keybuf = s.keybuf ∧ (ended hmac z e i s).keylen = s.keylen ∧
        (ended hmac z e i s).scope = s.scope := by
  cases z <;> exact ⟨rfl, rfl, rfl⟩

/-- Settles O53: by `step_failedEnd` the turn is the completion procedure, which writes no result; CODE alone may have been
invalidated before it. -/
theorem failedCommandWritesNoResult : Obligations.FailedCommandWritesNoResult := by
  intro s t rest hsched hs hstep ht
  obtain ⟨hmac, e, i, u, rfl, hu⟩ := step_failedEnd hsched hs hstep ht
  obtain ⟨hdigest, hreq⟩ := ended_copies hmac (s.pcmd.getLsbD 12) e i u
  have hkey := ended_key hmac (s.pcmd.getLsbD 12) e i u
  rcases hu with rfl | ⟨rfl, hcode⟩
  · exact ⟨⟨rfl, rfl, rfl, rfl, rfl, rfl⟩, .inl ⟨rfl, rfl⟩, hdigest, hreq, rfl, hkey, rfl, rfl, rfl, rfl⟩
  · exact ⟨⟨rfl, rfl, rfl, rfl, rfl, rfl⟩, .inr ⟨rfl, rfl, hcode⟩, hdigest, hreq, rfl, hkey, rfl, rfl, rfl, rfl⟩

/-! ## The completion procedure -/

/-- Settles O29: `finish`, and the three ways to call it, in the statement's words; Z is bit 12 of the command's word. -/
theorem completionProcedure : Obligations.CompletionProcedure :=
  ⟨fun hmac z s => ⟨fun err info => finish_eq_ended hmac z err info s, complete_eq_ended hmac z s,
      fun e => raise_eq_ended hmac z e s⟩,
    fun _ _ hdec => (bit12_of_decode hdec).symm, fun s e => rejectIllegal_eq_ended e s⟩

/-! ## Accept -/

/-- A write to CMD while BUSY = 0 is accepted (R64, R177). -/
theorem writeReg_cmd_of_idle {s : State} (w : Word) (hbusy : s.busy = false) : writeReg .cmd w s = accept w s := by
  rw [writeReg, if_neg (by decide), if_neg (by decide), if_neg (Bool.eq_false_iff.mp hbusy)]
  rfl

/-- Settles O26: the write of CMD, the ENGINE's turn with a command, and O25's ENGINE turn with an illegal word. -/
theorem acceptedCommandIsRunByTheEngine : Obligations.AcceptedCommandIsRunByTheEngine := by
  refine ⟨fun s w rest hbusy hsched => ?_, fun s i rest => step_engine_pend, fun s e rest hsched hpend hillegal => ?_⟩
  · have haccept : writeReg .cmd w (after rest s) = accept w (after rest s) := writeReg_cmd_of_idle w hbusy
    rw [step_write_reg .cmd w hsched, haccept]
    rfl
  · obtain ⟨-, hcompletes⟩ := decodeProcedureAndIllegalCompletion
    exact ⟨_, hcompletes s e rest hsched hpend hillegal, rfl, rfl, rfl⟩

/-! ## Clearing irq -/

theorem irq_of_done_clear {s : State} (h : s.done = false) : s.irq = false := by
  rw [State.irq, h, Bool.and_false]

theorem irq_of_disabled {s : State} (h : s.irqEn = false) : s.irq = false := by
  rw [State.irq, h, Bool.false_and]

/-- Settles O17: STATUS, accept and reset clear DONE, CTRL clears IRQ_EN, and a read of STATUS writes neither. -/
theorem irqFallsWhenCleared : Obligations.IrqFallsWhenCleared := by
  refine ⟨fun s v hv => irq_of_done_clear ?_, fun s w hbusy => irq_of_done_clear ?_,
    fun s => irq_of_done_clear rfl, fun s v hv => irq_of_disabled hv, fun s t rest hsched hstep => ?_⟩
  · rw [writeReg_status]
    exact if_pos hv
  · rw [writeReg_cmd_of_idle w hbusy]
    exact accept_done s w
  · cases (step_read_reg .status hsched).symm.trans hstep
    rfl

end Sys2Proof.Machine
end

section
/-! PROOFS. The RESET event (70_reset_and_hazards.md R201, R203). -/

namespace Sys2Proof.Machine

open Sys2Proof.Machine.Spec

/-- RESET's turn resets the block, whatever the block was doing (R201). -/
theorem step_reset {s : State} {rest : List Turn} (hsched : s.sched = .reset :: rest) :
    step s = .next (resetBlock (after rest s)) :=
  step_cons hsched

/-- Settles O2: `resetBlock` differs from the reset state outside the block alone, so the block's fields hold O1's values. -/
theorem resetEventResetsTheBlock : Obligations.ResetEventResetsTheBlock := by
  intro s rest hsched
  obtain ⟨hstatus, hdata, hbytes, hinternal, -⟩ := resetValuesAreTheSpecs
  exact ⟨resetBlock (after rest s), step_reset hsched, hstatus, hdata, hbytes, hinternal⟩

end Sys2Proof.Machine
end

section
/-! PROOFS. The statements about command words: the round trip of encoder and decoder, in both directions (30_encoding.md R81,
R89, R93), and R93's example words. -/

namespace Sys2Proof

/-- A command whose DigitCount fits its field is well-formed (R83). -/
theorem Instr.wf_of_dig_lt {i : Instr} (h : i.dig < 16) : i.wf = true := by
  cases i with
  | reduce d z => exact decide_eq_true h
  | format d z => exact decide_eq_true h
  | dtf d z => exact decide_eq_true h
  | hotp d z => exact decide_eq_true h
  | totp d z => exact decide_eq_true h
  | _ => rfl

/-- A decoded command's DigitCount comes from a 4-bit field (R83). -/
theorem dig_lt_of_decode {w : Word} {i : Instr} (h : decode w = .ok i) : i.dig < 16 := by
  obtain ⟨-, -, hdig, -⟩ := decode_ok_fields h
  rw [hdig]
  exact (digField w).isLt

/-- A word that decodes is assembled from its command's operands (R93). -/
theorem encode_of_decode {w : Word} {i : Instr} (h : decode w = .ok i) : encode i = w := by
  obtain ⟨hop, hz, hdig, hkb, hrsv1, hrsv2⟩ := decode_ok_fields h
  rw [encode_eq_wordOf (dig_lt_of_decode h), hop, hz, hdig, hkb, BitVec.ofNat_toNat, BitVec.setWidth_eq]
  exact wordOf_fields hrsv1 hrsv2

end Sys2Proof

namespace Sys2Proof.Machine

/-- Settles O21, which is `decode_encode`. -/
theorem decodeOfEncodeIsIdentity : Obligations.DecodeOfEncodeIsIdentity := fun _ => decode_encode

/-- Settles O22: the word is assembled from the command's operands, whose DigitCount fits its field. -/
theorem encodeOfDecodeIsIdentity : Obligations.EncodeOfDecodeIsIdentity :=
  fun _ _ h => ⟨encode_of_decode h, Instr.wf_of_dig_lt (dig_lt_of_decode h)⟩

/-- Settles O20 by evaluation of the decoder at the thirteen words. -/
theorem exampleWordsDecode : Obligations.ExampleWordsDecode := by
  unfold Obligations.ExampleWordsDecode
  decide

end Sys2Proof.Machine
end

section
/-! PROOFS. The invariants of 10_state.md R49: they hold at reset, and every step of every agent keeps them. -/

namespace Sys2Proof.Machine

/-- Settles O51, invariant by invariant: no scope, no code, no error, and no command in progress. -/
theorem resetMeetsTheInvariants : Obligations.ResetMeetsTheInvariants where
  closed_scope_holds_no_key := fun _ => ⟨rfl, rfl⟩
  zero_past_keylen := fun i _ => Vector.getElem_replicate i.isLt
  keylen_le := Nat.zero_le _
  busy_iff := by decide
  req_iff := by decide
  bin_lt := by decide
  num_lt := by decide
  codelen_mem := .inl rfl
  code_shape := noCode_shape
  info_of_no_error := fun _ => rfl
  error_pair := .inl rfl
  clatch_zero := fun _ => rfl
  pcmd_idle := fun _ => rfl
  clear_while_busy := fun h => absurd h (by decide)
  waiting := fun h => absurd h (by decide)
  request := fun _ h => nomatch h

/-- Taking a turn keeps the invariants, which say nothing of the schedule. -/
theorem takeTurn_inv {s : State} (h : Inv s) : Inv (takeTurn s) := by
  obtain ⟨sched, draws, htake⟩ := takeTurn_record s
  rw [htake]
  exact outside_inv s.bus s.host sched draws h

/-- HMACU's turn keeps the invariants: it is the second phase of the waiting command, or nothing (R132, R133). -/
theorem hmacuStep_inv {s : State} (ok : Bool) (h : Inv s) : Inv (hmacuStep ok s) := by
  by_cases hwait : s.eng = .wait
  · obtain ⟨r, hreq⟩ := Option.isSome_iff_exists.mp (h.req_iff.mpr hwait)
    rw [hmacuStep_wait ok hwait hreq]
    exact respond_inv _ h hwait
  · rw [hmacuStep_not_wait ok hwait]
    exact h

/-- RESET establishes the invariants in any state (R201). -/
theorem resetBlock_inv (s : State) : Inv (resetBlock s) := outside_inv _ _ _ _ resetMeetsTheInvariants

/-- Settles O52, turn by turn: taking the turn keeps the invariants, and so does what each agent then does. -/
theorem everyStepKeepsTheInvariants : Obligations.EveryStepKeepsTheInvariants := by
  intro s t hs hstep
  obtain ⟨u, rfl, hcases⟩ := step_cases hstep
  have hu := takeTurn_inv hs
  rcases hcases with ⟨-, hpend, i, hdec, hexec⟩ | ⟨-, hpend, e, -, rfl⟩ | ⟨ok, -, rfl⟩ | ⟨-, rfl⟩ | ⟨r, v, bus, host, rfl⟩ |
    ⟨bus, host, rfl⟩
  · exact exec_inv hu hpend hdec hexec
  · exact rejectIllegal_inv e hu hpend
  · exact hmacuStep_inv ok hu
  · exact resetBlock_inv _
  · exact outside_inv bus host _ _ (writeReg_inv r v hu)
  · exact outside_inv bus host _ _ hu

end Sys2Proof.Machine
end

section
/-! PROOFS. The register map (10_state.md R21) and the window's accesses, conforming and not (20_memory.md R63 to R66,
30_encoding.md R94). -/

namespace Sys2Proof.Machine

open Sys2Proof.Machine.Spec

/-! ## The register map -/

/-- The table of offsets lists every register (R21). -/
theorem mem_offsetTable (r : Reg) : (r.off, r) ∈ offsetTable := by cases r <;> decide

/-- The map finds a register's entry of the table (R21). -/
theorem regAtOffset_of_mem {off : Nat} {r : Reg} (h : (off, r) ∈ offsetTable) : regAtOffset off = some r := by
  rw [off_of_mem_offsetTable h, regAtOffset_off]

/-- The map finds nothing at an offset the table does not list (R66). -/
theorem regAtOffset_of_not_listed {off : Nat} (h : off ∉ offsetTable.map Prod.fst) : regAtOffset off = none := by
  refine regAtOffset_none fun r hoff => h ?_
  rw [← hoff]
  exact List.mem_map_of_mem (mem_offsetTable r)

/-- The map finds a register exactly at the offsets of the table (R21, R66). -/
theorem regAtOffset_isSome (off : Nat) : (regAtOffset off).isSome = (offsetTable.map Prod.fst).contains off := by
  by_cases h : off ∈ offsetTable.map Prod.fst
  · obtain ⟨⟨_, r⟩, hmem, rfl⟩ := List.mem_map.mp h
    rw [regAtOffset_of_mem hmem, List.contains_eq_mem, decide_eq_true h]
    rfl
  · rw [regAtOffset_of_not_listed h, List.contains_eq_mem, decide_eq_false h]
    rfl

/-- Settles O7: the map agrees with the table entry by entry, and the reserved offsets are not in the table. -/
theorem registerMapIsTheTable : Obligations.RegisterMapIsTheTable := by
  have hreserved : ∀ off ∈ [0x1C, 0x54, 0x58, 0x5C, 0x68, 0x6C], off ∉ offsetTable.map Prod.fst := by decide
  exact ⟨fun _ hp => ⟨regAtOffset_of_mem hp, (off_of_mem_offsetTable hp).symm⟩, fun off => regAtOffset_isSome off.val,
    fun off hoff => regAtOffset_of_not_listed (hreserved off hoff)⟩

/-! ## Accesses that reach no register -/

/-- An access of another size, at an unaligned offset or at an unlisted one reaches no register (R65). -/
theorem regAt_nonconforming {off size : Nat} (h : size ≠ 4 ∨ off % 4 ≠ 0 ∨ off ∉ offsetTable.map Prod.fst) :
    regAt (Config.base + off) size = none := by
  have haligned : ∀ o ∈ offsetTable.map Prod.fst, o % 4 = 0 := by decide
  rw [regAt_base]
  split_ifs with hsize
  · rcases h with h | h | h
    · exact absurd hsize h
    · exact regAtOffset_of_not_listed (mt (haligned off) h)
    · exact regAtOffset_of_not_listed h
  · rfl

section

variable {s : State} {rest : List Turn} {addr size : Nat} (haddr : regAt addr size = none)
include haddr

/-- Another master's read that reaches no register is answered with an error (R65). -/
theorem step_read_error (hsched : s.sched = .bus (.read addr size) :: rest) :
    step s = .next { after rest s with bus := .error } := by
  have hread : busRead addr size (after rest s) = .error := by simp only [busRead, haddr]
  rw [step_cons hsched, ← hread]
  rfl

/-- Another master's write that reaches no register is answered with an error (R65). -/
theorem step_write_error {v : Word} (hsched : s.sched = .bus (.write addr size v) :: rest) :
    step s = .next { after rest s with bus := .error } := by
  have hwrite : busWrite addr size v (after rest s) = { after rest s with bus := .error } := by
    simp only [busWrite, haddr]
  rw [step_cons hsched, ← hwrite]
  rfl

end

/-- The HOST's turn runs the instruction at its place (R94). -/
theorem step_host {s : State} {i : HostInstr} {rest : List Turn} (hsched : s.sched = .host :: rest)
    (hinstr : s.host.prog[s.host.pc]? = some i) : step s = execHost i (after rest s) := by
  have hturn : hostStep (after rest s) = execHost i (after rest s) := by simp only [hostStep, after, hinstr]
  rw [step_cons hsched, ← hturn]
  rfl

/-- Settles O8: the access reaches no register, so each of its four forms ends in its error. -/
theorem nonConformingAccessIsBusError : Obligations.NonConformingAccessIsBusError := by
  intro s off size h
  have haddr := regAt_nonconforming h
  refine ⟨fun rest => step_read_error haddr, fun rest v => step_write_error haddr, fun rest x hsched hinstr => ?_,
    fun rest v hsched hinstr => ?_⟩
  · simp only [step_host hsched hinstr, execHost, hostMemRead, haddr]
  · simp only [step_host hsched hinstr, execHost, hostMemWrite, haddr]

/-! ## Reads -/

/-- CODEk in integers, from its characters as numbers (R42). -/
theorem codeWord_toNat_byteNat (cs : Vector Byte 12) (k : Fin 3) : (codeWord cs k).toNat =
    byteNat cs (4 * k.val) + 2 ^ 8 * byteNat cs (4 * k.val + 1) + 2 ^ 16 * byteNat cs (4 * k.val + 2) +
      2 ^ 24 * byteNat cs (4 * k.val + 3) := by
  rw [codeWord_toNat, byteNat_eq_toNat cs (by omega), byteNat_eq_toNat cs (by omega), byteNat_eq_toNat cs (by omega),
    byteNat_eq_toNat cs (by omega)]

/-- CTRL in integers (R24). -/
theorem ctrlWord_toNat (s : State) : (ctrlWord s).toNat = s.irqEn.toNat := by
  rw [ctrlWord]
  cases s.irqEn <;> rfl

/-- What a read of a register returns, in integers (R63). -/
theorem readReg_toNat (r : Reg) (s : State) : (readReg r s).toNat = windowValue r s := by
  cases r with
  | id => rfl
  | cfg => exact congrArg BitVec.toNat cfgWord_eq
  | ctrl => exact ctrlWord_toNat s
  | status => exact statusWord_toNat s
  | cmd => rfl
  | keylen => exact BitVec.toNat_setWidth_of_le (by decide)
  | codelen => exact BitVec.toNat_setWidth_of_le (by decide)
  | tsLo => exact loHalf_toNat s.ts
  | tsHi => exact hiHalf_toNat s.ts
  | t0Lo => exact loHalf_toNat s.t0
  | t0Hi => exact hiHalf_toNat s.t0
  | stepLo => exact loHalf_toNat s.stepSize
  | stepHi => exact hiHalf_toNat s.stepSize
  | ctrLo => exact loHalf_toNat s.ctr
  | ctrHi => exact hiHalf_toNat s.ctr
  | digest0 => rfl
  | digest1 => rfl
  | digest2 => rfl
  | digest3 => rfl
  | digest4 => rfl
  | bin => rfl
  | num => rfl
  | code0 => exact codeWord_toNat_byteNat s.code 0
  | code1 => exact codeWord_toNat_byteNat s.code 1
  | code2 => exact codeWord_toNat_byteNat s.code 2

/-- Settles O9: a listed offset is its register's, whose value is `readReg_toNat`; any other read reaches no register. -/
theorem windowReadReturnsTheRegister : Obligations.WindowReadReturnsTheRegister := by
  refine ⟨fun s r off rest hmem hsched => ?_, fun s off size rest h => step_read_error (regAt_nonconforming h)⟩
  obtain rfl := off_of_mem_offsetTable hmem
  rw [step_read_reg r hsched, ← readReg_toNat, BitVec.ofNat_toNat, BitVec.setWidth_eq]

/-! ## Writes -/

theorem withLoHalf_eq_lowReplaced (v : DWord) (w : Word) : withLoHalf v w = lowReplaced v w := by
  rw [lowReplaced, ← withLoHalf_toNat, BitVec.ofNat_toNat, BitVec.setWidth_eq]

theorem withHiHalf_eq_highReplaced (v : DWord) (w : Word) : withHiHalf v w = highReplaced v w := by
  rw [highReplaced, ← withHiHalf_toNat, BitVec.ofNat_toNat, BitVec.setWidth_eq]

/-- A byte lane of a word in integers (R7). -/
theorem extractLsb'_eq_ofNat_div {n : Nat} (w : BitVec n) (lo len : Nat) :
    w.extractLsb' lo len = BitVec.ofNat len (w.toNat / 2 ^ lo) :=
  BitVec.eq_of_toNat_eq (by rw [field_toNat, BitVec.toNat_ofNat])

/-- A write of DIGESTk sets the bytes 4k to 4k+3, each from its lane (R39). -/
theorem withDigestWord_eq_digestWritten (dg : Vector Byte 20) (k : Nat) (v : Word) :
    withDigestWord dg k v = digestWritten dg k v := by
  refine Vector.ext fun i hi => ?_
  have hlane : i / 4 = k ↔ 4 * k ≤ i ∧ i < 4 * k + 4 := by omega
  simp only [withDigestWord_getElem, digestWritten, Vector.getElem_ofFn, hlane]
  split_ifs with h
  · rw [extractLsb'_eq_ofNat_div, show i % 4 = i - 4 * k by omega]
  · rfl

/-- While BUSY = 1 the statement's table has one case for every register but CTRL and STATUS (R68). -/
theorem windowWritten_of_busy {r : Reg} {s : State} (v : Word) (hctrl : r ≠ .ctrl) (hstatus : r ≠ .status)
    (hbusy : s.busy = true) : windowWritten r v s = { s with ovr := true } := by
  cases r with
  | ctrl => exact absurd rfl hctrl
  | status => exact absurd rfl hstatus
  | _ => simp only [windowWritten, hbusy]

/-- While BUSY = 0 the write of a register other than CTRL and STATUS is the statement's case for it (R64). -/
theorem writeIdle_eq_windowWritten {r : Reg} {s : State} (v : Word) (hctrl : r ≠ .ctrl) (hstatus : r ≠ .status)
    (hbusy : s.busy = false) : writeIdle r v s = windowWritten r v s := by
  cases r with
  | ctrl => exact absurd rfl hctrl
  | status => exact absurd rfl hstatus
  | cmd => simp only [writeIdle, accept, windowWritten, hbusy]
  | _ =>
    simp only [writeIdle, windowWritten, hbusy, withLoHalf_eq_lowReplaced, withHiHalf_eq_highReplaced,
      withDigestWord_eq_digestWritten]

/-- A write of a register is R64's case for it. -/
theorem writeReg_eq_windowWritten (r : Reg) (v : Word) (s : State) : writeReg r v s = windowWritten r v s := by
  rcases writeReg_cases r v s with ⟨rfl, -⟩ | ⟨rfl, -⟩ | ⟨hctrl, hstatus, hbusy, h⟩ | ⟨hctrl, hstatus, hbusy, h⟩
  · exact writeReg_ctrl v s
  · exact writeReg_status v s
  · rw [h, windowWritten_of_busy v hctrl hstatus hbusy]
  · rw [h, writeIdle_eq_windowWritten v hctrl hstatus hbusy]

/-- Settles O10: a listed offset is its register's, whose write is R64's case; any other write reaches no register. -/
theorem windowWriteDoesItsCase : Obligations.WindowWriteDoesItsCase := by
  refine ⟨fun s r off v rest hmem hsched => ?_, fun s off size v rest h => step_write_error (regAt_nonconforming h)⟩
  obtain rfl := off_of_mem_offsetTable hmem
  rw [step_write_reg r v hsched, writeReg_eq_windowWritten]

/-! ## Accesses by a register's name -/

/-- Settles O18: each access at the register's address of size 4 reaches it, by `regAt_base_off`. -/
theorem namedAccessIsWindowAccess : Obligations.NamedAccessIsWindowAccess := by
  intro s r v x
  refine ⟨?_, ?_, ?_, ?_⟩
  · simp only [busAccess, busWrite, regAt_base_off, hostWrite]
  · simp only [busRead, regAt_base_off]
  · simp only [hostMemWrite, regAt_base_off, execHost]
  · simp only [hostMemRead, regAt_base_off, execHost]

end Sys2Proof.Machine
end

section
/-! PROOFS. Registers wider or narrower than a word: the byte lanes of DIGEST and CODE (10_state.md R39, R42) and the halves of
the 64-bit registers (20_memory.md R62). -/

namespace Sys2Proof.Machine

open Sys2Proof.Machine.Spec

/-- An offset is one register's (R21). -/
theorem off_injective : Function.Injective Reg.off := fun r q h =>
  Option.some.inj ((regAtOffset_off r).symm.trans ((congrArg regAtOffset h).trans (regAtOffset_off q)))

/-- A byte string has no byte past its end. -/
theorem byteNat_of_le {n i : Nat} (b : Vector Byte n) (h : n ≤ i) : byteNat b i = 0 := by
  simp [byteNat, h]

/-! ## DIGEST -/

/-- DIGESTk. -/
def digestReg : Fin 5 → Reg
  | 0 => .digest0
  | 1 => .digest1
  | 2 => .digest2
  | 3 => .digest3
  | 4 => .digest4

theorem digestReg_off (k : Fin 5) : (digestReg k).off = 0x40 + 4 * k.val := by
  revert k
  decide

/-- A write of DIGESTk while BUSY = 0 replaces its word of the digest and nothing else (R39). -/
theorem writeReg_digestReg (k : Fin 5) (v : Word) {s : State} (hbusy : s.busy = false) :
    writeReg (digestReg k) v s = { s with digest := withDigestWord s.digest k.val v } := by
  fin_cases k <;> simp [writeReg, digestReg, hbusy, writeIdle]

theorem readReg_digestReg (k : Fin 5) (s : State) : readReg (digestReg k) s = 0 := by
  fin_cases k <;> rfl

/-- Byte 4k+j of the digest written is lane j of the word (R39). -/
theorem byteNat_withDigestWord_lane (dg : Vector Byte 20) (k : Fin 5) (v : Word) (j : Fin 4) :
    byteNat (withDigestWord dg k.val v) (4 * k.val + j.val) = v.toNat / 2 ^ (8 * j.val) % 2 ^ 8 := by
  have hword : (4 * k.val + j.val) / 4 = k.val := by omega
  have hlane : (4 * k.val + j.val) % 4 = j.val := by omega
  rw [byteNat_eq_toNat _ (by omega), withDigestWord_getElem, if_pos hword, hlane, field_toNat]

/-- The other bytes of the digest stay (R39). -/
theorem byteNat_withDigestWord_outside (dg : Vector Byte 20) (k : Nat) (v : Word) {i : Nat}
    (h : i < 4 * k ∨ 4 * k + 4 ≤ i) : byteNat (withDigestWord dg k v) i = byteNat dg i := by
  by_cases hi : i < 20
  · rw [byteNat_eq_toNat _ hi, byteNat_eq_toNat _ hi, withDigestWord_getElem, if_neg (by omega)]
  · rw [byteNat_of_le _ (by omega), byteNat_of_le _ (by omega)]

/-- Settles O12: the register is DIGESTk, whose write is `withDigestWord`, lane by lane. -/
theorem digestWriteFollowsByteLanes : Obligations.DigestWriteFollowsByteLanes := by
  intro s v k r hmem hbusy
  obtain rfl : digestReg k = r := off_injective ((digestReg_off k).trans (off_of_mem_offsetTable hmem))
  rw [writeReg_digestReg k v hbusy]
  exact ⟨byteNat_withDigestWord_lane s.digest k v, fun i => byteNat_withDigestWord_outside s.digest k.val v, rfl,
    readReg_digestReg k s⟩

/-! ## CODE -/

/-- CODEk. -/
def codeReg : Fin 3 → Reg
  | 0 => .code0
  | 1 => .code1
  | 2 => .code2

theorem codeReg_off (k : Fin 3) : (codeReg k).off = 0x70 + 4 * k.val := by
  revert k
  decide

theorem readReg_codeReg (k : Fin 3) (s : State) : readReg (codeReg k) s = codeWord s.code k := by
  fin_cases k <;> rfl

theorem byteNat_lt {n : Nat} (b : Vector Byte n) (i : Nat) : byteNat b i < 2 ^ 8 := BitVec.isLt _

/-- Lane j of CODEk is character 4k+j (R42). -/
theorem codeWord_lane (cs : Vector Byte 12) (k : Fin 3) (j : Fin 4) :
    (codeWord cs k).toNat / 2 ^ (8 * j.val) % 2 ^ 8 = byteNat cs (4 * k.val + j.val) := by
  have h0 := byteNat_lt cs (4 * k.val)
  have h1 := byteNat_lt cs (4 * k.val + 1)
  have h2 := byteNat_lt cs (4 * k.val + 2)
  have h3 := byteNat_lt cs (4 * k.val + 3)
  rw [codeWord_toNat_byteNat]
  fin_cases j <;> dsimp only [Nat.mul_zero, Nat.add_zero] <;> omega

/-- Settles O13: the register is CODEk, whose lanes are `codeWord_lane`. -/
theorem codeWordLanesAreCharacters : Obligations.CodeWordLanesAreCharacters := by
  intro s k j r hmem
  obtain rfl : codeReg k = r := off_injective ((codeReg_off k).trans (off_of_mem_offsetTable hmem))
  rw [readReg_codeReg, codeWord_lane]

/-! ## The 64-bit registers -/

/-- The value of a 64-bit register. -/
def Reg64.value (r : Reg64) (s : State) : DWord :=
  match r with
  | .ts => s.ts
  | .t0 => s.t0
  | .step => s.stepSize
  | .ctr => s.ctr

/-- The state with another value in a 64-bit register. -/
def Reg64.set (r : Reg64) (v : DWord) (s : State) : State :=
  match r with
  | .ts => { s with ts := v }
  | .t0 => { s with t0 := v }
  | .step => { s with stepSize := v }
  | .ctr => { s with ctr := v }

@[simp] theorem Reg64.value_set (r : Reg64) (v : DWord) (s : State) : r.value (r.set v s) = v := by cases r <;> rfl

@[simp] theorem Reg64.set_busy (r : Reg64) (v : DWord) (s : State) : (r.set v s).busy = s.busy := by cases r <;> rfl

/-- A write of R_LO while BUSY = 0 replaces the register's low half (R64). -/
theorem writeReg_lo (r : Reg64) (v : Word) {s : State} (hbusy : s.busy = false) :
    writeReg r.lo v s = r.set (withLoHalf (r.value s) v) s := by
  cases r <;> simp [writeReg, Reg64.lo, hbusy, writeIdle, Reg64.set, Reg64.value]

/-- A write of R_HI while BUSY = 0 replaces the register's high half (R64). -/
theorem writeReg_hi (r : Reg64) (v : Word) {s : State} (hbusy : s.busy = false) :
    writeReg r.hi v s = r.set (withHiHalf (r.value s) v) s := by
  cases r <;> simp [writeReg, Reg64.hi, hbusy, writeIdle, Reg64.set, Reg64.value]

theorem readReg_lo (r : Reg64) (s : State) : readReg r.lo s = loHalf (r.value s) := by cases r <;> rfl

theorem readReg_hi (r : Reg64) (s : State) : readReg r.hi s = hiHalf (r.value s) := by cases r <;> rfl

/-- The low half and then the high half make the value. -/
theorem withHiHalf_withLoHalf (u v : DWord) : withHiHalf (withLoHalf u (loHalf v)) (hiHalf v) = v := by
  apply BitVec.eq_of_toNat_eq
  rw [withHiHalf_toNat, withLoHalf_toNat, loHalf_toNat, hiHalf_toNat]
  omega

/-- The high half and then the low half make the value. -/
theorem withLoHalf_withHiHalf (u v : DWord) : withLoHalf (withHiHalf u (hiHalf v)) (loHalf v) = v := by
  apply BitVec.eq_of_toNat_eq
  rw [withLoHalf_toNat, withHiHalf_toNat, loHalf_toNat, hiHalf_toNat]
  omega

/-- Writing both halves while BUSY = 0, in either order, sets the 64-bit register (R62). -/
theorem value_of_writeReg_halves {r : Reg64} {v : DWord} {s t : State} (hbusy : s.busy = false)
    (ht : t = writeReg r.hi (hiHalf v) (writeReg r.lo (loHalf v) s) ∨
      t = writeReg r.lo (loHalf v) (writeReg r.hi (hiHalf v) s)) : r.value t = v := by
  rcases ht with rfl | rfl
  · rw [writeReg_lo r _ hbusy, writeReg_hi r _ (by simpa using hbusy), Reg64.value_set, Reg64.value_set,
      withHiHalf_withLoHalf]
  · rw [writeReg_hi r _ hbusy, writeReg_lo r _ (by simpa using hbusy), Reg64.value_set, Reg64.value_set,
      withLoHalf_withHiHalf]

/-- Settles O14: the two writes set the register, and a read of a half reads the register's half. -/
theorem twoHalvesMakeTheRegister : Obligations.TwoHalvesMakeTheRegister := by
  intro s v r hbusy t ht
  have hvalue : r.value t = v := value_of_writeReg_halves hbusy ht
  refine ⟨?_, ?_, ?_⟩
  · cases r <;> exact hvalue
  · rw [readReg_lo, hvalue, loHalf]
  · rw [readReg_hi, hvalue, hiHalf]

end Sys2Proof.Machine
end

section
/-! PROOFS. Turns: the ENGINE and HMACU outside their states (41_hotp_core.md R133, 70_reset_and_hazards.md R210), the end of a
pending command, the HOST's instructions (30_encoding.md R94), and the error codes (60_exceptions.md R171, R172). -/

namespace Sys2Proof.Machine

open Sys2Proof.Machine.Spec

/-! ## Turns without a step -/

/-- HMACU's turn outside WAIT takes the turn off the schedule and does nothing else (R133). -/
theorem step_hmacu_not_wait {s : State} {ok : Bool} {rest : List Turn} (hsched : s.sched = .hmacu ok :: rest)
    (hwait : s.eng ≠ .wait) : step s = .next (after rest s) := by
  have hturn : hmacuStep ok (after rest s) = after rest s := hmacuStep_not_wait ok hwait
  rw [step_cons hsched]
  exact congrArg _ hturn

/-- Settles O3, which is `step_hmacu_not_wait`. -/
theorem answerOutsideWaitIsDropped : Obligations.AnswerOutsideWaitIsDropped := fun _ _ _ => step_hmacu_not_wait

/-- Settles O28: outside PEND the ENGINE has no step. -/
theorem engineRunsOnlyWhenPending : Obligations.EngineRunsOnlyWhenPending := by
  intro s rest hsched hpend
  have hturn : engineStep (after rest s) = .next (after rest s) := engineStep_not_pend hpend
  rw [step_cons hsched]
  exact hturn

/-! ## A pending command ends -/

/-- In `t` the command has ended, and the schedule is that of `s` (R176). -/
def EndedFrom (s t : State) : Prop := t.eng = .idle ∧ t.busy = false ∧ t.done = true ∧ t.sched = s.sched

/-- In `t` a HOTP or TOTP waits for its answer, and the schedule is that of `s` (R131). -/
def WaitsFrom (s t : State) : Prop :=
  t.eng = .wait ∧ (∃ r, t.req = some r) ∧ (∃ i, decode t.pcmd = .ok i ∧ asksHmac i = true) ∧ t.sched = s.sched

/-- The completion procedure ends the command (R176). -/
theorem finish_endedFrom {s u : State} (hsched : u.sched = s.sched) (h z : Bool) (e : BitVec 4) (i : BitVec 8) :
    EndedFrom s (finish h z e i u) :=
  ⟨finish_eng .., finish_busy .., finish_done .., (finish_sched ..).trans hsched⟩

/-- A command's first step ends it, or leaves a HOTP or TOTP waiting. -/
theorem exec_endedFrom {i : Instr} {s t : State} (hdec : decode s.pcmd = .ok i) (hexec : exec i s = .next t) :
    EndedFrom s t ∨ WaitsFrom s t := by
  obtain ⟨-, -, -, -, hsched, -⟩ := exec_outside hexec
  rcases exec_cases hexec with ⟨hask, c, rfl⟩ | ⟨e, rfl⟩ | ⟨-, e, rfl⟩ | ⟨-, u, rfl, -⟩
  · exact .inr ⟨rfl, ⟨_, rfl⟩, ⟨i, hdec, hask⟩, hsched⟩
  · exact .inl (finish_endedFrom rfl ..)
  · exact .inl (finish_endedFrom rfl ..)
  · exact .inl (finish_endedFrom ((finish_sched ..).symm.trans hsched) ..)

/-- The ENGINE's turn with any pending word ends it, or leaves a HOTP or TOTP waiting (R210). -/
theorem engineStep_endedFrom {s : State} (hpend : s.eng = .pend) :
    ∃ t, engineStep s = .next t ∧ (EndedFrom s t ∨ WaitsFrom s t) := by
  cases hdec : decode s.pcmd with
  | ok i =>
    obtain ⟨t, hexec⟩ := exec_answers_next i s
    exact ⟨t, (engineStep_ok hpend hdec).trans hexec, exec_endedFrom hdec hexec⟩
  | error e => exact ⟨_, engineStep_error hpend hdec, .inl (finish_endedFrom rfl ..)⟩

/-- The commands that ask HMACU are HOTP and TOTP (R130). -/
theorem eq_of_asksHmac {i : Instr} (h : asksHmac i = true) : ∃ d z, i = .hotp d z ∨ i = .totp d z := by
  cases i with
  | hotp d z => exact ⟨d, z, .inl rfl⟩
  | totp d z => exact ⟨d, z, .inr rfl⟩
  | _ => cases h

/-- HMACU's turn with a waiting HOTP or TOTP ends it, whatever the answer (R136, R141). -/
theorem hmacuStep_endedFrom {s t : State} (ok : Bool) (h : WaitsFrom s t) : EndedFrom s (hmacuStep ok t) := by
  obtain ⟨hwait, ⟨r, hreq⟩, ⟨i, hdec, hask⟩, hsched⟩ := h
  rw [hmacuStep_wait ok hwait hreq]
  obtain ⟨d, z, rfl | rfl⟩ := eq_of_asksHmac hask
  · rw [respond_hotp _ hdec]
    cases hmacResponse ok r <;> refine finish_endedFrom ?_ .. <;> exact hsched
  · rw [respond_totp _ hdec]
    cases hmacResponse ok r <;> refine finish_endedFrom ?_ .. <;> exact hsched

/-- Settles O58: after the ENGINE's turn the command has ended and HMACU's turn does nothing, or it waits and HMACU's turn
ends it. -/
theorem commandEndsInAtMostTwoTurns : Obligations.CommandEndsInAtMostTwoTurns := by
  intro s ok rest hpend hsched
  obtain ⟨t, hengine, hends⟩ := engineStep_endedFrom (s := after (.hmacu ok :: rest) s) hpend
  have hstep : step s = .next t := (step_cons hsched).trans hengine
  rcases hends with ⟨heng, hbusy, hdone, hsched'⟩ | hwaits
  · have hidle : t.eng ≠ .wait := by rw [heng]; decide
    exact ⟨t, after rest t, hstep, step_hmacu_not_wait hsched' hidle, heng, hbusy, hdone, rfl⟩
  · obtain ⟨hwait, hreq, hcmd, hsched'⟩ := hwaits
    obtain ⟨heng, hbusy, hdone, hrest⟩ :=
      hmacuStep_endedFrom (s := after rest t) (t := after rest t) ok ⟨hwait, hreq, hcmd, rfl⟩
    exact ⟨t, hmacuStep ok (after rest t), hstep, step_cons hsched', heng, hbusy, hdone, hrest⟩

/-! ## The HOST's instructions -/

/-- A write of a register, then the next instruction (R94). -/
theorem hostNext_hostWrite (r : Reg) (v : Word) (s : State) : hostNext (hostWrite r v s) =
    { writeReg r v s with bus := .written, host := { s.host with pc := s.host.pc + 1 } } := by
  simp only [hostNext, hostGoto, hostWrite, writeReg_host]

/-- `(rY + simm) mod 2^32`, as a natural number (R94). -/
theorem addSigned_eq_ofNat (v : Word) (n : Int) :
    addSigned v n = BitVec.ofNat 32 (((v.toNat : Int) + n) % 2 ^ 32).toNat := by
  apply BitVec.eq_of_toNat_eq
  rw [addSigned, BitVec.toNat_ofInt, BitVec.toNat_ofNat]
  omega

/-- A branch is a jump to its label or to the next instruction. -/
theorem hostBranch_eq_hostGoto (taken : Bool) (l : Nat) (s : State) :
    hostBranch taken l s = hostGoto (if taken then l else s.host.pc + 1) s := by
  cases taken <;> rfl

theorem execHost_bnez (x : Fin 16) (l : Nat) (s : State) : execHost (.bnez x l) s =
    .next (hostGoto (if s.hreg x = 0 then s.host.pc + 1 else l) s) := by
  simp only [execHost, hostBranch_eq_hostGoto, bne_iff_ne, ne_eq, ite_not]

theorem execHost_beqz (x : Fin 16) (l : Nat) (s : State) : execHost (.beqz x l) s =
    .next (hostGoto (if s.hreg x = 0 then l else s.host.pc + 1) s) := by
  simp only [execHost, hostBranch_eq_hostGoto, beq_iff_eq]

/-- Settles O19, form by form: the writes go through the window, the branches through `hostGoto`, and the others write one
register of the HOST. -/
theorem hostInstructionsDoTheirForms : Obligations.HostInstructionsDoTheirForms := by
  refine ⟨fun s i rest => step_host, fun s x y r v n l => ⟨?_, ?_, rfl, rfl, rfl, ?_, ?_, ?_⟩⟩
  · exact congrArg _ (hostNext_hostWrite r v s)
  · exact congrArg _ (hostNext_hostWrite r (s.hreg x) s)
  · rw [← addSigned_eq_ofNat]
    rfl
  · exact execHost_bnez x l s
  · exact execHost_beqz x l s

/-! ## The error codes -/

theorem mem_allCmdErrors (e : CmdError) : e ∈ allCmdErrors := by cases e <;> decide

/-- Settles O30: the table is evaluated, and its injectivity is checked over the list of all sub-causes. -/
theorem errorCodesAreTheTables : Obligations.ErrorCodesAreTheTables := by
  have hinjective : ∀ e ∈ allCmdErrors, ∀ f ∈ allCmdErrors, e.errCode = f.errCode → e.infoCode = f.infoCode → e = f := by
    decide
  exact ⟨by decide, mem_allCmdErrors, fun e f => hinjective e (mem_allCmdErrors e) f (mem_allCmdErrors f)⟩

end Sys2Proof.Machine
end
